-- ==== Sys2Proof/Word.lean ====
section
/-! DEFINITION. The words and fields of mipsim CORE as bit vectors (00_scope.md R6, R7, R9; 30_encoding.md R71 to R73). -/

namespace Sys2Proof

/-- A register value, a memory word or an instruction word: 32 bits, bit 31 the most significant (R6). -/
abbrev Word := BitVec 32

/-- One byte of the output stream (10_state.md R30). -/
abbrev Byte := BitVec 8

/-- A general register's number: a 5-bit field, so no other index can arise (10_state.md R23). -/
abbrev RegNum := BitVec 5

/-- A primary opcode or a function code: 6 bits (30_encoding.md R71). -/
abbrev Code6 := BitVec 6

/-- The immediate of the I format (30_encoding.md R72). -/
abbrev Imm16 := BitVec 16

/-- The address field of the J format (30_encoding.md R73). -/
abbrev Addr26 := BitVec 26

end Sys2Proof
end

