-- ==== Sys2Proof/Config.lean ====
section
/-! DEFINITION. The parameters of the hardware (00_scope.md R5). The "decision" parameters are the fields of `Config`;
their default values are `Machine.params` (Machine/Params.lean). Nothing of this hardware is an unspecified value
(93_implementation_defined.md, summary), so there is no free value and no opaque constant here. -/

namespace Sys2Proof

/-- `IMM_EXTEND`: how the 16-bit immediate is widened (30_encoding.md R85, 41_itype_arith.md R132). -/
inductive ImmExtend where
  | zero
  | sign
  deriving DecidableEq, Repr

/-- `OVERFLOW`: the result of a signed overflow (40_rtype_arith.md R115). Wrap is the one setting the spec gives. -/
inductive OverflowMode where
  | wrap
  deriving DecidableEq, Repr

/-- `JUMPS`: what `j` and `jal` do (42_jtype.md R140, R141). The fault is the one setting the spec gives
(91_not_in_source.md N9 lists what any other would have to settle). -/
inductive JumpMode where
  | fault
  deriving DecidableEq, Repr

/-- The decision parameters of 00_scope.md R5, under the spec's names. -/
structure Config where
  /-- `OPC_ADDI` -/
  opcAddi : Code6
  /-- `OPC_ADDIU` -/
  opcAddiu : Code6
  /-- `OPC_J` -/
  opcJ : Code6
  /-- `OPC_JAL` -/
  opcJal : Code6
  /-- `FN_ADD` -/
  fnAdd : Code6
  /-- `FN_ADDU` -/
  fnAddu : Code6
  /-- `FN_SUB` -/
  fnSub : Code6
  /-- `FN_SUBU` -/
  fnSubu : Code6
  /-- `FN_SYSCALL` -/
  fnSyscall : Code6
  /-- `REG_V0`, the syscall-number register -/
  regV0 : RegNum
  /-- `REG_A0`, the first-argument register -/
  regA0 : RegNum
  /-- `REG_RA`, named by the source and used by no rule -/
  regRa : RegNum
  /-- `ZERO_HARDWIRED`, whether register 0 always reads 0 (10_state.md R22) -/
  zeroHardwired : Bool
  /-- `IMM_EXTEND` -/
  immExtend : ImmExtend
  /-- `JUMPS` -/
  jumps : JumpMode
  /-- `OVERFLOW` -/
  overflow : OverflowMode
  /-- `PC_WIDTH`, the width of the program counter in bits (10_state.md R25) -/
  pcWidth : Nat
  deriving DecidableEq, Repr

end Sys2Proof
end

