-- ==== Sys2Proof/Machine/AsmTypes.lean ====
section
/-! DEFINITION. The decoded Instruction of the front-end contract (30_encoding.md R88 to R91): what the external parser
hands to the encoder. The parsing of text itself is outside the hardware (00_scope.md R4a). -/

namespace Sys2Proof.Machine

/-- The closed enumeration of register names (10_state.md R24); `fp` is not one of them. -/
inductive RegName where
  | zero | at | v0 | v1 | a0 | a1 | a2 | a3
  | t0 | t1 | t2 | t3 | t4 | t5 | t6 | t7
  | s0 | s1 | s2 | s3 | s4 | s5 | s6 | s7
  | t8 | t9 | k0 | k1 | gp | sp | s8 | ra
  deriving DecidableEq, Repr

/-- The closed set of opcodes: the nine mnemonics (R80, R88). -/
inductive Mnemonic where
  | add | addu | sub | subu | syscall | addi | addiu | j | jal
  deriving DecidableEq, Repr

/-- The tag of an operand (R88). -/
inductive OperandTag where
  | reg
  | imm
  deriving DecidableEq, Repr

/-- An operand: a register reference, or a non-negative integer literal of any size (R88, R91). -/
inductive Operand where
  | reg (r : RegName)
  | imm (k : Nat)
  deriving DecidableEq, Repr

/-- An Instruction value: an opcode and an ordered list of tagged operands (R88). -/
structure AsmLine where
  op : Mnemonic
  operands : List Operand
  deriving DecidableEq, Repr

end Sys2Proof.Machine
end

