-- ==== Sys2Proof/Machine/Params.lean ====
section
/-! DEFINITION. The values of the parameters (00_scope.md R5): the fixed ones the source states, and `params`, the
default the spec chose for each decision parameter (92_eei_decisions.md). -/

namespace Sys2Proof.Machine

/-- The primary opcode of the register format: 0, stated by the source (R5, 30_encoding.md R71). -/
def opcR : Code6 := 0

/-- `SYS_PRINT_INT`, the syscall number of print-integer: 0, stated by the source (43_syscall.md R151). -/
def sysPrintInt : Word := 0

/-- `MEM_WORDS` (10_state.md R28). -/
def memWords : Nat := 1024

/-- The parameters at the spec's defaults (R5).
PRESUMED, unsafe (log entries 5, 6): the opcode, function and register numbers, the standard MIPS ones (D1, D2).
DESIGN CHOICE of the spec, unsafe: register 0 ordinary (D3, log entry 7), zero extension (D4, log entry 8), wrap on
overflow (D7, log entry 11). DESIGN CHOICE of the spec, safe: jumps fault (D5, log entry 9), the pc is 32 bits wide
(D12, log entry 14). -/
def params : Config where
  opcAddi := 0x08
  opcAddiu := 0x09
  opcJ := 0x02
  opcJal := 0x03
  fnAdd := 0x20
  fnAddu := 0x21
  fnSub := 0x22
  fnSubu := 0x23
  fnSyscall := 0x0C
  regV0 := 2
  regA0 := 4
  regRa := 31
  zeroHardwired := false
  immExtend := .zero
  jumps := .fault
  overflow := .wrap
  pcWidth := 32

/-- The type of the program counter: unsigned, `PC_WIDTH` bits (10_state.md R25, D12). -/
abbrev PcWord := BitVec params.pcWidth

end Sys2Proof.Machine
end

