-- ==== Sys2Proof/Syntax.lean ====
section
/-! DEFINITION. The nine instructions, one constructor per row of opcode_table.json (30_encoding.md R80). The fields
are the operand fields the rules read, in the encoder's argument order (R75 to R77); bits the decoder ignores (R82)
are no part of an instruction. -/

namespace Sys2Proof

/-- An instruction as the Decoder hands it to its execution rule. -/
inductive Instr where
  /-- 40_rtype_arith.md R110 -/
  | add (rs rt rd : RegNum)
  /-- 40_rtype_arith.md R111 -/
  | addu (rs rt rd : RegNum)
  /-- 40_rtype_arith.md R112 -/
  | sub (rs rt rd : RegNum)
  /-- 40_rtype_arith.md R113 -/
  | subu (rs rt rd : RegNum)
  /-- 43_syscall.md R150 -/
  | syscall
  /-- 41_itype_arith.md R130 -/
  | addi (rs rt : RegNum) (imm : Imm16)
  /-- 41_itype_arith.md R131 -/
  | addiu (rs rt : RegNum) (imm : Imm16)
  /-- 42_jtype.md R140 -/
  | j (address : Addr26)
  /-- 42_jtype.md R141 -/
  | jal (address : Addr26)
  deriving DecidableEq, Repr

end Sys2Proof
end

