-- ==== Sys2Proof/WellFormed.lean ====
section
/-! DEFINITION. The checks on data that enters the hardware. An `Instr` needs none: each field has exactly the width
of its field in the word, so every `Instr` is well formed by its type. What can be ill formed is a choice of
parameters (00_scope.md R5), an Instruction value of the front end (30_encoding.md R88, R89), an operand too wide
for its field (R78, R91) and an instruction stream too long (R5, `N`). -/

namespace Sys2Proof

open Machine

/-- The four primary opcodes are non-zero (R5). -/
def Config.opcodesNonzero (c : Config) : Bool :=
  [c.opcAddi, c.opcAddiu, c.opcJ, c.opcJal].all (· != opcR)

/-- The four primary opcodes are pairwise distinct (R5). -/
def Config.opcodesDistinct (c : Config) : Bool :=
  decide [c.opcAddi, c.opcAddiu, c.opcJ, c.opcJal].Nodup

/-- The five function codes are pairwise distinct (R5). -/
def Config.functsDistinct (c : Config) : Bool :=
  decide [c.fnAdd, c.fnAddu, c.fnSub, c.fnSubu, c.fnSyscall].Nodup

/-- The consistency R5 asks of the nine opcode and function parameters. -/
def Config.consistent (c : Config) : Bool :=
  c.opcodesNonzero && c.opcodesDistinct && c.functsDistinct

namespace Machine

/-- The tag of an operand. -/
def Operand.tag : Operand → OperandTag
  | .reg _ => .reg
  | .imm _ => .imm

/-- The operand tags of each mnemonic, destination first (30_encoding.md R89). -/
def Mnemonic.tags : Mnemonic → List OperandTag
  | .add | .addu | .sub | .subu => [.reg, .reg, .reg]
  | .syscall => []
  | .addi | .addiu => [.reg, .reg, .imm]
  | .j | .jal => [.imm]

/-- An Instruction value has the operands of its mnemonic, in number and in tags (R88, R89). -/
def AsmLine.wellFormed (l : AsmLine) : Bool :=
  l.operands.map Operand.tag == l.op.tags

/-- The bound of a mnemonic's immediate: 16 bits, and 26 bits for a jump (R78, R91). -/
def Mnemonic.immBound : Mnemonic → Nat
  | .j | .jal => 2 ^ 26
  | _ => 2 ^ 16

/-- Every literal fits its field, which the caller must ensure and nothing checks (R78; 90_conflicts.md C8). -/
def AsmLine.fits (l : AsmLine) : Bool :=
  l.operands.all fun
    | .reg _ => true
    | .imm k => decide (k < l.op.immBound)

/-- The bound R5 puts on the length `N` of the instruction stream (92 D13). -/
abbrev streamAdmitted (words : List Word) : Prop := words.length < 2 ^ 32

end Machine

end Sys2Proof
end

