-- ==== Sys2Proof/Decode.lean ====
section
/-! DEFINITION. The bit fields (00_scope.md R9), the Decoder (30_encoding.md R80 to R84, R95) and, after it, the three
encoders (R75 to R79) and the encoding of an instruction. Words are 32-bit integers; there is no byte view (20_memory.md
R51). -/

namespace Sys2Proof

open Machine

/-- `opcode(w) = w[31:26]` (R9). -/
def opcodeField (w : Word) : Code6 := w.extractLsb' 26 6

/-- `rs(w) = w[25:21]` (R9). -/
def rsField (w : Word) : RegNum := w.extractLsb' 21 5

/-- `rt(w) = w[20:16]` (R9). -/
def rtField (w : Word) : RegNum := w.extractLsb' 16 5

/-- `rd(w) = w[15:11]` (R9). -/
def rdField (w : Word) : RegNum := w.extractLsb' 11 5

/-- `shamt(w) = w[10:6]` (R9), which no rule reads. -/
def shamtField (w : Word) : BitVec 5 := w.extractLsb' 6 5

/-- `funct(w) = w[5:0]` (R9). -/
def functField (w : Word) : Code6 := w.extractLsb' 0 6

/-- `imm(w) = w[15:0]` (R9, R85). -/
def immField (w : Word) : Imm16 := w.extractLsb' 0 16

/-- `address(w) = w[25:0]` (R9, R86). -/
def addressField (w : Word) : Addr26 := w.extractLsb' 0 26

/-- Why a word selects no instruction, with what the fault records of it (60_exceptions.md R190). -/
inductive DecodeError where
  /-- The primary opcode selects no rule family (R83). -/
  | unknownOpcode (opcode : Code6) (word : Word)
  /-- Primary opcode 0, and the function field selects no instruction (R84). -/
  | unknownFunction (funct : Code6) (word : Word)
  deriving DecidableEq, Repr

/-- The outcome of decoding: one of the nine instructions or one of the two decode faults (R95). -/
inductive Decoded where
  | instr (i : Instr)
  | error (e : DecodeError)
  deriving DecidableEq, Repr

/-- Step 2 of the decode algorithm: primary opcode 0, selected by `w[5:0]` and by no other bit (R81, R82). -/
def decodeRegister (c : Config) (w : Word) : Decoded :=
  if functField w = c.fnAdd then .instr (.add (rsField w) (rtField w) (rdField w))
  else if functField w = c.fnAddu then .instr (.addu (rsField w) (rtField w) (rdField w))
  else if functField w = c.fnSub then .instr (.sub (rsField w) (rtField w) (rdField w))
  else if functField w = c.fnSubu then .instr (.subu (rsField w) (rtField w) (rdField w))
  else if functField w = c.fnSyscall then .instr .syscall
  else .error (.unknownFunction (functField w) w)

/-- The decode algorithm of R81, in its order, under the parameters `c`. -/
def decodeWith (c : Config) (w : Word) : Decoded :=
  if opcodeField w = opcR then decodeRegister c w
  else if opcodeField w = c.opcAddi then .instr (.addi (rsField w) (rtField w) (immField w))
  else if opcodeField w = c.opcAddiu then .instr (.addiu (rsField w) (rtField w) (immField w))
  else if opcodeField w = c.opcJ then .instr (.j (addressField w))
  else if opcodeField w = c.opcJal then .instr (.jal (addressField w))
  else .error (.unknownOpcode (opcodeField w) w)

/-- The Decoder at the spec's parameters. -/
def decode (w : Word) : Decoded := decodeWith params w

/-- The instruction a decoding gives, where it gives one. -/
def Decoded.toInstr : Decoded → Option Instr
  | .instr i => some i
  | .error _ => none

/-- The word whose bits are `w`, numbered as opcode_table.json numbers them; bits from `nbits` up are 0. -/
def tableWord (nbits w : Nat) : Word := BitVec.ofNat 32 (w % 2 ^ nbits)

/-- What the Decoder reads from an instruction whose `nbits` bits are `w`. Every instruction is one 32-bit word (R70),
so nothing longer is one. -/
def decodeTableWord (nbits w : Nat) : Option Instr :=
  if nbits ≤ 32 then (decode (tableWord nbits w)).toInstr else none

/-! The encoder. -/

/-- A field's value placed with its lowest bit at bit `k` of the word. -/
def placeField {n : Nat} (k : Nat) (v : BitVec n) : Word := v.setWidth 32 <<< k

/-- The register format's layout (R71), opcode and shamt 0. -/
def packR (rs rt rd : RegNum) (funct : Code6) : Word :=
  placeField 26 opcR ||| placeField 21 rs ||| placeField 16 rt ||| placeField 11 rd ||| placeField 0 funct

/-- The immediate format's layout (R72). -/
def packI (opcode : Code6) (rs rt : RegNum) (imm : Imm16) : Word :=
  placeField 26 opcode ||| placeField 21 rs ||| placeField 16 rt ||| placeField 0 imm

/-- The jump format's layout (R73). -/
def packJ (opcode : Code6) (address : Addr26) : Word :=
  placeField 26 opcode ||| placeField 0 address

/-- `encode_R` (R75): each argument reduced modulo 2 to its field's width (R78), then placed. -/
def encodeR (rs rt rd funct : Nat) : Word :=
  packR (BitVec.ofNat 5 rs) (BitVec.ofNat 5 rt) (BitVec.ofNat 5 rd) (BitVec.ofNat 6 funct)

/-- `encode_I` (R76). -/
def encodeI (opcode rs rt imm : Nat) : Word :=
  packI (BitVec.ofNat 6 opcode) (BitVec.ofNat 5 rs) (BitVec.ofNat 5 rt) (BitVec.ofNat 16 imm)

/-- `encode_J` (R77). -/
def encodeJ (opcode address : Nat) : Word :=
  packJ (BitVec.ofNat 6 opcode) (BitVec.ofNat 26 address)

/-- The canonical word of an instruction under the parameters `c` (R89, R94; for `syscall` the register fields are 0,
D11). -/
def encodeWith (c : Config) : Instr → Word
  | .add rs rt rd => packR rs rt rd c.fnAdd
  | .addu rs rt rd => packR rs rt rd c.fnAddu
  | .sub rs rt rd => packR rs rt rd c.fnSub
  | .subu rs rt rd => packR rs rt rd c.fnSubu
  | .syscall => packR 0 0 0 c.fnSyscall
  | .addi rs rt imm => packI c.opcAddi rs rt imm
  | .addiu rs rt imm => packI c.opcAddiu rs rt imm
  | .j address => packJ c.opcJ address
  | .jal address => packJ c.opcJal address

/-- The canonical word of an instruction at the spec's parameters. -/
def encode (i : Instr) : Word := encodeWith params i

end Sys2Proof
end

