-- ==== Sys2Proof/Machine/State.lean ====
section
/-! DEFINITION. The machine state (10_state.md R20 to R30, R36) and the reasons a step can stop. -/

namespace Sys2Proof.Machine

/-- The closed list of faults (60_exceptions.md R190), each with the info it records. A fault's entry is described by
the spec (R198: `status <- Faulted(kind, info)`), so the instruction that raises one answers a NEXT state whose
`status` holds it; no step of this model ends in a host fault (log entry 1, safe). -/
inductive Fault where
  /-- Raised by the dispatcher, step 5, for a primary opcode that selects nothing (R191). Records the opcode and the
  word. Safe. -/
  | unknownOpcode (opcode : Code6) (word : Word)
  /-- Raised by the dispatcher, step 2, for a function field that selects nothing (R192). Records the function code and
  the word. Safe. -/
  | unknownFunction (funct : Code6) (word : Word)
  /-- Raised by the Syscall Handler for a syscall number other than 0 (R193). Records the number. Safe. -/
  | unsupportedSyscall (number : Word)
  /-- Raised by the jump-type rule for every `j` and `jal` (R194). Records the opcode and the address. Safe. -/
  | notYetImplemented (opcode : Code6) (address : Addr26)
  deriving DecidableEq, Repr

/-- Why the model answers no state. No step of this model refuses. -/
inductive Refusal where
  /-- For an arm of `exec` that has no meaning yet; none is left. Safe. -/
  | notModelled (mnemonic : String)
  /-- Raised by the memory primitives for an index outside 0..1023 (20_memory.md R61, D18); no instruction reaches them
  (R62). Safe. -/
  | memIndexOutOfRange (index : Nat)
  deriving DecidableEq, Repr

/-- The run status (10_state.md R29): Ready and Halted are not stored, they compare `pc` with `N`. -/
inductive Status where
  | running
  | faulted (f : Fault)
  deriving DecidableEq, Repr

/-- The data memory (R28): (index, word) pairs in canonical form, `Mem.wf`. Word-indexed: the spec forbids a byte view
(20_memory.md R51), so a cell is a word and not a byte (log entry 15). -/
abbrev Mem := List (Nat × Word)

/-- What an unlisted index reads as: the reset value 0 (R36). -/
def Mem.unlisted : Word := 0

/-- The canonical form from index `lo` up: indices strictly rising and below 1024, no entry equal to what an unlisted
index reads as. -/
def Mem.wfFrom (lo : Nat) : Mem → Bool
  | [] => true
  | (i, v) :: rest => decide (lo ≤ i) && decide (i < memWords) && (v != Mem.unlisted) && Mem.wfFrom (i + 1) rest

/-- The memory is in its canonical form, so that equal memories are equal data. -/
def Mem.wf (m : Mem) : Bool := Mem.wfFrom 0 m

/-- The machine state: the tuple `(x, pc, mem)` of R20 with the run status and the output stream the spec adds to it
(R29, R30), and the run's input stream (R35), which the spec does not count as state. -/
structure State where
  /-- `x[0]` .. `x[31]` (R21) -/
  regs : Vector Word 32
  /-- the program counter, an index into `words` (R25), of `PC_WIDTH` bits (D12, log entry 14) -/
  pc : PcWord
  /-- `mem[0]` .. `mem[1023]` (R28) -/
  mem : Mem
  /-- the run status (R29) -/
  status : Status
  /-- the bytes emitted since reset, oldest first (R30) -/
  out : List Byte
  /-- `words[0..N-1]`, the run's input, which no step changes (R35). DESIGN CHOICE, safe: the model's own field
  (log entry 3) -/
  words : List Word
  deriving DecidableEq, Repr

/-- The state right after reset: everything zero, Running, nothing emitted (R36, R220). No stream is supplied yet
(log entry 3). -/
def State.reset : State where
  regs := Vector.replicate 32 0
  pc := 0
  mem := []
  status := .running
  out := []
  words := []

end Sys2Proof.Machine
end

