-- ==== Sys2Proof/Machine/Ops.lean ====
section
/-! DEFINITION. The named operations on the state (00_scope.md R8): registers, memory, output, the pc's advance, and the
one operation that takes a fault. -/

namespace Sys2Proof.Machine

/-- The pattern stored in register `i`. -/
def State.x (s : State) (i : RegNum) : Word := s.regs[i.toNat]'i.isLt

/-- `x[i]` (10_state.md R23). Under `ZERO_HARDWIRED` register 0 reads 0 always (R22). -/
def State.readReg (s : State) (c : Config) (i : RegNum) : Word :=
  if c.zeroHardwired = true ∧ i = 0 then 0 else s.x i

/-- `x[i] <- v` (R23). Under `ZERO_HARDWIRED` a write of register 0 has no effect (R22). -/
def State.writeReg (s : State) (c : Config) (i : RegNum) (v : Word) : State :=
  if c.zeroHardwired = true ∧ i = 0 then s else { s with regs := s.regs.set i.toNat v i.isLt }

/-- The word at index `i` of the list. -/
def Mem.read : Mem → Nat → Word
  | [], _ => Mem.unlisted
  | (j, v) :: rest, i => if i = j then v else Mem.read rest i

/-- The list with index `i` holding `v`, its canonical form kept. -/
def Mem.write : Mem → Nat → Word → Mem
  | [], i, v => if v = Mem.unlisted then [] else [(i, v)]
  | (j, u) :: rest, i, v =>
    if i < j then (if v = Mem.unlisted then (j, u) :: rest else (i, v) :: (j, u) :: rest)
    else if i = j then (if v = Mem.unlisted then rest else (i, v) :: rest)
    else (j, u) :: Mem.write rest i v

/-- `MemRead(i, 1)` (20_memory.md R61): refused outside 0..1023. -/
def State.memRead (s : State) (i : Nat) : Except Refusal Word :=
  if i < memWords then .ok (s.mem.read i) else .error (.memIndexOutOfRange i)

/-- `MemWrite(i, 1, v)` (R61): refused outside 0..1023. -/
def State.memWrite (s : State) (i : Nat) (v : Word) : Except Refusal State :=
  if i < memWords then .ok { s with mem := s.mem.write i v } else .error (.memIndexOutOfRange i)

/-- `emit(bytes)` (R8): append to the output stream, which cannot fail or block (43_syscall.md R156). -/
def State.emit (s : State) (bytes : List Byte) : State := { s with out := s.out ++ bytes }

/-- `pc <- pc + 1`, the only write of the pc (10_state.md R26, 45_step_and_run.md R171). -/
def State.advancePc (s : State) : State := { s with pc := s.pc + 1 }

/-- `raise <Fault>(info)` (00_scope.md R8, 60_exceptions.md R198): the operation makes no write of its own, the status
becomes Faulted. Control goes nowhere and nothing is saved. There is no return from a fault (R199): only
`State.reset` starts again. -/
def State.raise (s : State) (f : Fault) : State := { s with status := .faulted f }

/-- The fault's ordinal code, the spec's own numbering (60_exceptions.md R190, D9). Nothing depends on it. -/
def Fault.code : Fault → Nat
  | .unknownOpcode _ _ => 1
  | .unknownFunction _ _ => 2
  | .unsupportedSyscall _ => 3
  | .notYetImplemented _ _ => 4

end Sys2Proof.Machine
end

