-- ==== Sys2Proof/Machine/Operands.lean ====
section
/-! DEFINITION. Operand forms and the arithmetic of 00_scope.md R7: modulo-2^32 addition and subtraction, the
signed reading of a pattern, and the widening of the immediate. -/

namespace Sys2Proof.Machine

/-- `a +32 b = (a + b) mod 2^32` (R7). -/
def add32 (a b : Word) : Word := a + b

/-- `a -32 b = (a - b) mod 2^32` (R7). -/
def sub32 (a b : Word) : Word := a - b

/-- The signed reading of a pattern (R7). PRESUMED, safe: two's complement (93 GK3, log entry 16). -/
def signed (v : Word) : Int := if v.toNat < 2 ^ 31 then (v.toNat : Int) else (v.toNat : Int) - 2 ^ 32

/-- `zext_32(v)` of a 16-bit value (R8). -/
def zext32 (v : Imm16) : Word := v.setWidth 32

/-- `sext_32(v)`: bit 15 copied into bits 31 to 16 (R8), used only under `IMM_EXTEND = sign`. -/
def sext32 (v : Imm16) : Word := v.signExtend 32

/-- The immediate operand of `addi` and `addiu` (30_encoding.md R85, 41_itype_arith.md R132). -/
def extendImm : ImmExtend → Imm16 → Word
  | .zero, k => zext32 k
  | .sign, k => sext32 k

end Sys2Proof.Machine
end

