-- ==== Sys2Proof/Machine/RType.lean ====
section
/-! DEFINITION. The register-type arithmetic rule and its four instructions (40_rtype_arith.md). No flag, no fault, no
write of the pc. -/

namespace Sys2Proof.Machine

/-- The two operations of the register-type rule. -/
inductive ArithOp where
  | add
  | sub
  deriving DecidableEq, Repr

/-- The result of an operation: the low 32 bits, whatever the signed result (R115). -/
def arith : OverflowMode → ArithOp → Word → Word → Word
  | .wrap, .add, a, b => add32 a b
  | .wrap, .sub, a, b => sub32 a b

/-- The register-type arithmetic rule: both sources are read before the destination is written (R114). -/
def regRule (c : Config) (op : ArithOp) (rs rt rd : RegNum) (s : State) : State :=
  s.writeReg c rd (arith c.overflow op (s.readReg c rs) (s.readReg c rt))

/-- ADD (R110): `x[rd] <- (x[rs] + x[rt]) mod 2^32`. -/
def execAdd (rs rt rd : RegNum) (s : State) : Host.Outcome State Fault Refusal :=
  .next (regRule params .add rs rt rd s)

/-- ADDU (R111): as ADD. -/
def execAddu (rs rt rd : RegNum) (s : State) : Host.Outcome State Fault Refusal :=
  .next (regRule params .add rs rt rd s)

/-- SUB (R112): `x[rd] <- (x[rs] - x[rt]) mod 2^32`. -/
def execSub (rs rt rd : RegNum) (s : State) : Host.Outcome State Fault Refusal :=
  .next (regRule params .sub rs rt rd s)

/-- SUBU (R113): as SUB. -/
def execSubu (rs rt rd : RegNum) (s : State) : Host.Outcome State Fault Refusal :=
  .next (regRule params .sub rs rt rd s)

end Sys2Proof.Machine
end

