-- ==== Sys2Proof/Machine/IType.lean ====
section
/-! DEFINITION. The immediate-type rule and its two instructions (41_itype_arith.md). No flag, no fault, no write of the
pc. -/

namespace Sys2Proof.Machine

/-- The immediate-type rule: the widened immediate is added to the source, under the same arithmetic law (R132,
R133). -/
def immRule (c : Config) (rs rt : RegNum) (imm : Imm16) (s : State) : State :=
  s.writeReg c rt (arith c.overflow .add (s.readReg c rs) (extendImm c.immExtend imm))

/-- ADDI (R130): `x[rt] <- (x[rs] + zext_32(imm)) mod 2^32`. -/
def execAddi (rs rt : RegNum) (imm : Imm16) (s : State) : Host.Outcome State Fault Refusal :=
  .next (immRule params rs rt imm s)

/-- ADDIU (R131): as ADDI. -/
def execAddiu (rs rt : RegNum) (imm : Imm16) (s : State) : Host.Outcome State Fault Refusal :=
  .next (immRule params rs rt imm s)

end Sys2Proof.Machine
end

