-- ==== Sys2Proof/Machine/JType.lean ====
section
/-! DEFINITION. The jump-type rule and its two instructions (42_jtype.md): decoded, then always a fault. -/

namespace Sys2Proof.Machine

/-- The jump-type rule: raise `NotYetImplemented` with the primary opcode and the address (R142). -/
def jumpRule (c : Config) (opcode : Code6) (address : Addr26) (s : State) : State :=
  match c.jumps with
  | .fault => s.raise (.notYetImplemented opcode address)

/-- J (R140): its whole effect is the fault's entry. -/
def execJ (address : Addr26) (s : State) : Host.Outcome State Fault Refusal :=
  .next (jumpRule params params.opcJ address s)

/-- JAL (R141): its whole effect is the fault's entry; `ra` is not written. -/
def execJal (address : Addr26) (s : State) : Host.Outcome State Fault Refusal :=
  .next (jumpRule params params.opcJal address s)

end Sys2Proof.Machine
end

