-- ==== Sys2Proof/Machine/Syscall.lean ====
section
/-! DEFINITION. SYSCALL and the Syscall Handler (43_syscall.md). -/

namespace Sys2Proof.Machine

/-- The byte of a decimal digit, 0x30 to 0x39 (R152). -/
def digitByte (d : Nat) : Byte := BitVec.ofNat 8 (0x30 + d)

/-- The minus sign (R152). -/
def minusByte : Byte := 0x2D

/-- The newline (R152). -/
def newlineByte : Byte := 0x0A

/-- The decimal digits of `n`, most significant first, no leading zero, for `n` of at most `fuel` digits. -/
def decDigits : Nat → Nat → List Byte
  | 0, _ => []
  | fuel + 1, n => (if n < 10 then [] else decDigits fuel (n / 10)) ++ [digitByte (n % 10)]

/-- The decimal text of a 32-bit value read as signed (R152): the magnitude is at most 2^31, of ten digits. -/
def decimalText (v : Int) : List Byte :=
  if v < 0 then minusByte :: decDigits 10 v.natAbs else decDigits 10 v.natAbs

/-- What print-integer emits (R151, R152). DESIGN CHOICE of the spec, unsafe: signed, ASCII, one LF (D15, log entry
16). -/
def printText (v : Word) : List Byte := decimalText (signed v) ++ [newlineByte]

/-- The Syscall Handler (R150 to R153): the whole 32-bit number is compared. -/
def syscallHandler (c : Config) (s : State) : State :=
  if s.readReg c c.regV0 = sysPrintInt then s.emit (printText (s.readReg c c.regA0))
  else s.raise (.unsupportedSyscall (s.readReg c c.regV0))

/-- SYSCALL (R150). -/
def execSyscall (s : State) : Host.Outcome State Fault Refusal :=
  .next (syscallHandler params s)

end Sys2Proof.Machine
end

