-- ==== Sys2Proof/Machine/Run.lean ====
section
/-! DEFINITION. The dispatcher on a word, the two entry points and the run state machine (45_step_and_run.md). -/

namespace Sys2Proof.Machine

/-- The fault a decode error raises (60_exceptions.md R191, R192). -/
def decodeFault : DecodeError → Fault
  | .unknownOpcode op w => .unknownOpcode op w
  | .unknownFunction fn w => .unknownFunction fn w

/-- `dispatch(state, w)` (30_encoding.md R81): the word's execution rule, or the decode fault. It consults neither the
status nor the pc and never advances the pc. -/
def dispatch (s : State) (w : Word) : Host.Outcome State Fault Refusal :=
  match decode w with
  | .instr i => exec i s
  | .error e => .next (s.raise (decodeFault e))

/-- `execute_one(state, w)` (R172): nothing on a Faulted state; the pc is neither read nor written. -/
def executeOne (s : State) (w : Word) : Host.Outcome State Fault Refusal :=
  match s.status with
  | .running => dispatch s w
  | .faulted _ => .next s

/-- The fetch `words[pc]` (R176); none when `pc >= N`. -/
def State.fetch (s : State) : Option Word := s.words[s.pc.toNat]?

/-- The three states of a run (R173). -/
inductive Phase where
  | ready
  | halted
  | faulted
  deriving DecidableEq, Repr

/-- Ready is Running with `pc < N`, Halted is Running with `pc >= N` (R173; 90_conflicts.md C5). -/
def State.phase (s : State) : Phase :=
  match s.status with
  | .running => if s.pc.toNat < s.words.length then .ready else .halted
  | .faulted _ => .faulted

/-- The loop's advance of the pc: by 1 after a word that did not fault; on a fault the pc keeps the faulting index
(R171, D6). -/
def advance (s : State) : State :=
  match s.status with
  | .running => s.advancePc
  | .faulted _ => s

/-- One turn of `execute_many`'s loop over the stream the state holds (R171): on a Faulted or a Halted state the loop
stops and nothing changes (R174, R183; log entry 2). -/
def cycle (s : State) : Host.Outcome State Fault Refusal :=
  match s.status with
  | .faulted _ => .next s
  | .running =>
    match s.fetch with
    | none => .next s
    | some w =>
      match executeOne s w with
      | .next t => .next (advance t)
      | .fault f => .fault f
      | .refused r => .refused r

/-- `k` turns of the loop. -/
def cycles : Nat → State → Host.Outcome State Fault Refusal
  | 0, s => .next s
  | k + 1, s =>
    match cycle s with
    | .next t => cycles k t
    | .fault f => .fault f
    | .refused r => .refused r

/-- The state with the run's stream supplied. -/
def State.withStream (s : State) (words : List Word) : State := { s with words := words }

/-- `execute_many(state, words)` (R171). The loop is written with the bound R177 gives it, `max(N - pc, 0)` turns; a
turn on a stopped state changes nothing (log entry 26). -/
def executeMany (s : State) (words : List Word) : Host.Outcome State Fault Refusal :=
  cycles (words.length - s.pc.toNat) (s.withStream words)

/-- The stream with `w` at index `k`; indices below `k` that it lacked hold 0. -/
def placeWord : List Word → Nat → Word → List Word
  | [], 0, w => [w]
  | _ :: rest, 0, w => w :: rest
  | [], k + 1, w => 0 :: placeWord [] k w
  | v :: rest, k + 1, w => v :: placeWord rest k w

/-- The state with `w` where the loop fetches next, and Running, so that the next turn executes `w` (log entry 4). -/
def State.placeNext (s : State) (w : Word) : State :=
  { s with words := placeWord s.words s.pc.toNat w, status := .running }

end Sys2Proof.Machine
end

