-- ==== Sys2Proof/Machine/Step.lean ====
section
/-! DEFINITION. The machine's step, one turn of `execute_many`'s loop (45_step_and_run.md R171), and the placing of the
next instruction's word. -/

namespace Sys2Proof.Machine

/-- One turn of the loop of `execute_many` (R171). -/
def step (s : State) : Host.Outcome State Fault Refusal := cycle s

/-- The state with the instruction of bits `w` at the index the step fetches next. -/
def State.withFetchWord (s : State) (nbits w : Nat) : State := s.placeNext (tableWord nbits w)

end Sys2Proof.Machine
end

