-- ==== Sys2Proof/Machine/Assembler.lean ====
section
/-! DEFINITION. The boundary with the front end: register names and numbers (10_state.md R24) and the encoder call of
each assembly form (30_encoding.md R89, R90). Reading text is outside the hardware (00_scope.md R4a). -/

namespace Sys2Proof.Machine

/-- The register number of a name (R24). PRESUMED, safe: the standard MIPS numbering (92 D2, log entry 6); no
instruction's behaviour depends on it. -/
def RegName.number : RegName → RegNum
  | .zero => 0 | .at => 1 | .v0 => 2 | .v1 => 3 | .a0 => 4 | .a1 => 5 | .a2 => 6 | .a3 => 7
  | .t0 => 8 | .t1 => 9 | .t2 => 10 | .t3 => 11 | .t4 => 12 | .t5 => 13 | .t6 => 14 | .t7 => 15
  | .s0 => 16 | .s1 => 17 | .s2 => 18 | .s3 => 19 | .s4 => 20 | .s5 => 21 | .s6 => 22 | .s7 => 23
  | .t8 => 24 | .t9 => 25 | .k0 => 26 | .k1 => 27 | .gp => 28 | .sp => 29 | .s8 => 30 | .ra => 31

/-- The encoder call of each form, destination first (R89; D24). A value whose operands are not those of its mnemonic
never reaches the core (R88: the front end aborts), so it has no word. -/
def AsmLine.assemble (l : AsmLine) : Option Word :=
  match l.op, l.operands with
  | .add, [.reg d, .reg s, .reg t] => some (encodeR s.number.toNat t.number.toNat d.number.toNat params.fnAdd.toNat)
  | .addu, [.reg d, .reg s, .reg t] => some (encodeR s.number.toNat t.number.toNat d.number.toNat params.fnAddu.toNat)
  | .sub, [.reg d, .reg s, .reg t] => some (encodeR s.number.toNat t.number.toNat d.number.toNat params.fnSub.toNat)
  | .subu, [.reg d, .reg s, .reg t] => some (encodeR s.number.toNat t.number.toNat d.number.toNat params.fnSubu.toNat)
  | .syscall, [] => some (encodeR 0 0 0 params.fnSyscall.toNat)
  | .addi, [.reg t, .reg s, .imm k] => some (encodeI params.opcAddi.toNat s.number.toNat t.number.toNat k)
  | .addiu, [.reg t, .reg s, .imm k] => some (encodeI params.opcAddiu.toNat s.number.toNat t.number.toNat k)
  | .j, [.imm a] => some (encodeJ params.opcJ.toNat a)
  | .jal, [.imm a] => some (encodeJ params.opcJal.toNat a)
  | _, _ => none

/-- The instruction a form stands for, each literal reduced to its field's width (R78, R89). -/
def AsmLine.instr (l : AsmLine) : Option Instr :=
  match l.op, l.operands with
  | .add, [.reg d, .reg s, .reg t] => some (.add s.number t.number d.number)
  | .addu, [.reg d, .reg s, .reg t] => some (.addu s.number t.number d.number)
  | .sub, [.reg d, .reg s, .reg t] => some (.sub s.number t.number d.number)
  | .subu, [.reg d, .reg s, .reg t] => some (.subu s.number t.number d.number)
  | .syscall, [] => some .syscall
  | .addi, [.reg t, .reg s, .imm k] => some (.addi s.number t.number (BitVec.ofNat 16 k))
  | .addiu, [.reg t, .reg s, .imm k] => some (.addiu s.number t.number (BitVec.ofNat 16 k))
  | .j, [.imm a] => some (.j (BitVec.ofNat 26 a))
  | .jal, [.imm a] => some (.jal (BitVec.ofNat 26 a))
  | _, _ => none

end Sys2Proof.Machine
end

