-- ==== Sys2Proof/Machine/Flags.lean ====
section
/-! DEFINITION. The hardware has no flag and no condition code, and no instruction computes one (10_state.md R31). What
stands here is the condition the spec calls signed overflow (40_rtype_arith.md R115), which raises nothing and sets
nothing: a claim may name it, no instruction does. -/

namespace Sys2Proof.Machine

/-- A value outside the signed 32-bit range -2^31 .. 2^31 - 1 (R115). -/
def outsideSigned (v : Int) : Bool := decide (v < -2 ^ 31) || decide (2 ^ 31 ≤ v)

/-- The exact signed sum of two patterns lies outside the signed range (R115). -/
def addOverflows (a b : Word) : Bool := outsideSigned (signed a + signed b)

/-- The exact signed difference of two patterns lies outside the signed range (R115). -/
def subOverflows (a b : Word) : Bool := outsideSigned (signed a - signed b)

end Sys2Proof.Machine
end

