-- ==== Sys2Proof/Safety.lean ====
section
/-! DEFINITION. The terms claims use: what an operation leaves unchanged, how a run ends, and the invariants of a run
(70_reset_and_hazards.md R228). -/

namespace Sys2Proof.Machine

/-- The state an outcome goes on to, where it goes on. -/
def nextState : Host.Outcome State Fault Refusal → Option State
  | .next s => some s
  | .fault _ => none
  | .refused _ => none

/-- Every index of memory reads in `t` as it read in `s`. -/
def MemoryUnchanged (s t : State) : Prop := ∀ i : Nat, t.memRead i = s.memRead i

/-- Nothing but the registers may differ. -/
structure OnlyRegistersChange (s t : State) : Prop where
  pc : t.pc = s.pc
  memory : MemoryUnchanged s t
  status : t.status = s.status
  out : t.out = s.out
  words : t.words = s.words

/-- The frame of an instruction whose destination is register `d`: every other register, the pc, the memory, the
status, the output and the stream are unchanged. -/
structure OnlyRegisterChanges (d : RegNum) (s t : State) : Prop where
  others : ∀ r : RegNum, r ≠ d → t.x r = s.x r
  rest : OnlyRegistersChange s t

/-- The frame of a fault's entry (60_exceptions.md R198): registers, pc, memory, output and stream are unchanged. -/
structure OnlyStatusChanges (s t : State) : Prop where
  registers : ∀ r : RegNum, t.x r = s.x r
  pc : t.pc = s.pc
  memory : MemoryUnchanged s t
  out : t.out = s.out
  words : t.words = s.words

/-- The frame of a print (43_syscall.md R154): all but the output is unchanged. -/
structure OnlyOutputGrows (bytes : List Byte) (s t : State) : Prop where
  registers : ∀ r : RegNum, t.x r = s.x r
  pc : t.pc = s.pc
  memory : MemoryUnchanged s t
  status : t.status = s.status
  out : t.out = s.out ++ bytes
  words : t.words = s.words

/-- A fault's entry and nothing else (60_exceptions.md R198). -/
def FaultsWithNoWrite (s t : State) : Prop := ∃ f : Fault, t = s.raise f

/-- A completed instruction (45_step_and_run.md R175): at most one register written and no output, or the printed line
of `a0` and no register; the pc apart, nothing else. -/
structure CompletesWhole (s t : State) : Prop where
  status : t.status = .running
  memory : t.mem = s.mem
  words : t.words = s.words
  effect : (t.out = s.out ∧ ∃ d : RegNum, ∀ r : RegNum, r ≠ d → t.x r = s.x r) ∨
    ((∀ r : RegNum, t.x r = s.x r) ∧ t.out = s.out ++ printText (s.x params.regA0))

/-- A run ended well (45_step_and_run.md R179). -/
def EndedWell (s : State) : Prop := s.phase = .halted

/-- The destination register of an instruction that writes one (10_state.md R23). -/
def destination : Instr → Option RegNum
  | .add _ _ rd | .addu _ _ rd | .sub _ _ rd | .subu _ _ rd => some rd
  | .addi _ rt _ | .addiu _ rt _ => some rt
  | .syscall | .j _ | .jal _ => none

/-- The registers an instruction reads in a state (10_state.md R23): `syscall` reads the argument only when the number
is 0. -/
def readSet (i : Instr) (s : State) : List RegNum :=
  match i with
  | .add rs rt _ | .addu rs rt _ | .sub rs rt _ | .subu rs rt _ => [rs, rt]
  | .addi rs _ _ | .addiu rs _ _ => [rs]
  | .syscall => if s.x params.regV0 = sysPrintInt then [params.regV0, params.regA0] else [params.regV0]
  | .j _ | .jal _ => []

/-- The mask of an instruction's row of opcode_table.json (30_encoding.md R80). -/
def rowMask : Instr → Word
  | .add _ _ _ | .addu _ _ _ | .sub _ _ _ | .subu _ _ _ | .syscall => 0xFC00003F
  | .addi _ _ _ | .addiu _ _ _ | .j _ | .jal _ => 0xFC000000

/-- The match of an instruction's row of opcode_table.json (R80); it tells the nine rows apart. -/
def rowMatch : Instr → Word
  | .add _ _ _ => 0x00000020
  | .addu _ _ _ => 0x00000021
  | .sub _ _ _ => 0x00000022
  | .subu _ _ _ => 0x00000023
  | .syscall => 0x0000000C
  | .addi _ _ _ => 0x20000000
  | .addiu _ _ _ => 0x24000000
  | .j _ => 0x08000000
  | .jal _ => 0x0C000000

/-- The bits of an instruction's word that the decoder examines; the others are ignored (R82). -/
def examinedBits : Instr → Word
  | .add _ _ _ | .addu _ _ _ | .sub _ _ _ | .subu _ _ _ => 0xFFFFF83F
  | .syscall => 0xFC00003F
  | .addi _ _ _ | .addiu _ _ _ | .j _ | .jal _ => 0xFFFFFFFF

/-- The primary opcodes that select a rule family (R81). -/
def knownOpcodes : List Code6 := [opcR, params.opcAddi, params.opcAddiu, params.opcJ, params.opcJal]

/-- The function codes that select an instruction under primary opcode 0 (R81). -/
def knownFuncts : List Code6 := [params.fnAdd, params.fnAddu, params.fnSub, params.fnSubu, params.fnSyscall]

/-- A word has one of the four causes of a fault (60_exceptions.md R190): an unknown opcode, an unknown function code, a
syscall number other than 0, a jump. -/
def HasFaultCause (s : State) (w : Word) : Prop :=
  opcodeField w ∉ knownOpcodes ∨
  (opcodeField w = opcR ∧ functField w ∉ knownFuncts) ∨
  (opcodeField w = opcR ∧ functField w = params.fnSyscall ∧ s.x params.regV0 ≠ sysPrintInt) ∨
  opcodeField w = params.opcJ ∨ opcodeField w = params.opcJal

/-- The sum of the immediates of the pairs that name register `r` (45_step_and_run.md R182). -/
def immediateSum (r : RegNum) : List (RegNum × Imm16) → Nat
  | [] => 0
  | (d, k) :: rest => (if d = r then k.toNat else 0) + immediateSum r rest

/-- The output is a concatenation of printed texts (R228 b). -/
inductive PrintedOutput : List Byte → Prop where
  | empty : PrintedOutput []
  | print (bytes : List Byte) (v : Word) : PrintedOutput bytes → PrintedOutput (bytes ++ printText v)

/-- The value of a decimal digit's byte; none where it is no digit. -/
def digitValue (b : Byte) : Option Nat :=
  if 0x30 ≤ b.toNat ∧ b.toNat ≤ 0x39 then some (b.toNat - 0x30) else none

/-- The number that digits and one closing newline denote, read on from `acc`. -/
def readDigits (acc : Nat) : List Byte → Option Nat
  | [] => none
  | b :: rest =>
    if b = newlineByte ∧ rest = [] then some acc
    else match digitValue b with
      | some d => readDigits (10 * acc + d) rest
      | none => none

/-- The number that one or more digits and one closing newline denote. -/
def readNumber : List Byte → Option Nat
  | [] => none
  | b :: rest => (digitValue b).bind fun d => readDigits d rest

/-- The value a printed line denotes (an optional minus sign, digits, a newline); none where it is no such line. A
reader written apart from the printer. -/
def readLine : List Byte → Option Int
  | [] => none
  | b :: rest =>
    if b = minusByte then (readNumber rest).map fun (n : Nat) => -(n : Int)
    else (readNumber (b :: rest)).map fun (n : Nat) => (n : Int)

/-- Every register that differs from 0 is the destination of a word of the stream below the pc (R228 f). -/
def RegistersWritten (s : State) : Prop :=
  ∀ r : RegNum, s.x r ≠ 0 →
    ∃ k : Nat, ∃ w : Word, ∃ i : Instr,
      k < s.pc.toNat ∧ s.words[k]? = some w ∧ decode w = .instr i ∧ destination i = some r

/-- The invariant of a run over an admitted stream (R228 a, b, c, f): memory is zero and in canonical form, the
output is printed lines, the pc is at most `N`, and only destinations of executed words differ from 0. -/
structure RunInvariant (s : State) : Prop where
  stream : streamAdmitted s.words
  pc : s.pc.toNat ≤ s.words.length
  memory : s.mem = []
  out : PrintedOutput s.out
  registers : RegistersWritten s

end Sys2Proof.Machine
end

