-- ==== Sys2Proof/Certificates/Slice0/Obligations.lean ====
section
/-! DEFINITION. The statements for the provers, from the numbered rules of spec/. -/

open Sys2Proof Sys2Proof.Machine

/-! Encoders and the decoder (30_encoding.md). -/

/-- 30_encoding.md section 2: each argument, of any size, is reduced modulo 2 to its field's width and placed; an
oversized argument never spills. The argument order is the spec's decision D10 (log entry 13). -/
def Obligations.EncodersPlaceTruncatedArguments : Prop :=
  (∀ rs rt rd funct : Nat, (encodeR rs rt rd funct).toNat =
    rs % 2 ^ 5 * 2 ^ 21 + rt % 2 ^ 5 * 2 ^ 16 + rd % 2 ^ 5 * 2 ^ 11 + funct % 2 ^ 6) ∧
  (∀ opcode rs rt imm : Nat, (encodeI opcode rs rt imm).toNat =
    opcode % 2 ^ 6 * 2 ^ 26 + rs % 2 ^ 5 * 2 ^ 21 + rt % 2 ^ 5 * 2 ^ 16 + imm % 2 ^ 16) ∧
  (∀ opcode address : Nat, (encodeJ opcode address).toNat =
    opcode % 2 ^ 6 * 2 ^ 26 + address % 2 ^ 26)

/-- 30_encoding.md section 4, the round trips: fields packed into a word are read back, and a word's fields pack into
it again (the register format exactly when opcode and shamt are 0). The jump case and the second direction are the
spec's own inferences. -/
def Obligations.FieldsRoundTrip : Prop :=
  (∀ (rs rt rd : RegNum) (funct : Code6), ∃ w : Word,
    w = encodeR rs.toNat rt.toNat rd.toNat funct.toNat ∧ opcodeField w = 0 ∧ rsField w = rs ∧ rtField w = rt ∧
      rdField w = rd ∧ shamtField w = 0 ∧ functField w = funct) ∧
  (∀ (opcode : Code6) (rs rt : RegNum) (imm : Imm16), ∃ w : Word,
    w = encodeI opcode.toNat rs.toNat rt.toNat imm.toNat ∧ opcodeField w = opcode ∧ rsField w = rs ∧
      rtField w = rt ∧ immField w = imm) ∧
  (∀ (opcode : Code6) (address : Addr26), ∃ w : Word,
    w = encodeJ opcode.toNat address.toNat ∧ opcodeField w = opcode ∧ addressField w = address) ∧
  (∀ w : Word,
    packI (opcodeField w) (rsField w) (rtField w) (immField w) = w ∧
    packJ (opcodeField w) (addressField w) = w ∧
    (packR (rsField w) (rtField w) (rdField w) (functField w) = w ↔ opcodeField w = 0 ∧ shamtField w = 0))

/-- Decode and encode agree, for every instruction with every operand and for every choice of opcode and function
values that is consistent (00_scope.md section 3; 92_eei_decisions.md D1). -/
def Obligations.DecodeInvertsEncodeForConsistentParameters : Prop :=
  ∀ c : Config, c.consistent = true → ∀ i : Instr, decodeWith c (encodeWith c i) = .instr i

/-- The other direction (30_encoding.md R82, R94; conflict C3, D21): a word that decodes is the canonical word of its
instruction but for the bits the decoder ignores, under any parameters. -/
def Obligations.DecodedWordReencodesToItsExaminedBits : Prop :=
  ∀ (c : Config) (w : Word) (i : Instr), decodeWith c w = .instr i → encodeWith c i = w &&& examinedBits i

/-- 30_encoding.md section 3: a word is the instruction of a row exactly when `(w AND mask) = match`. The numbers of
the rows are the spec's decision D1 (log entry 5). -/
def Obligations.OpcodeTableSelectsTheInstruction : Prop :=
  ∀ (w : Word) (row : Instr),
    w &&& rowMask row = rowMatch row ↔ ∃ i : Instr, decode w = .instr i ∧ rowMatch i = rowMatch row

/-- 30_encoding.md R82 (conflict C3, decision D21): the decoder examines neither shamt nor, for syscall, bits 25:6. -/
def Obligations.IgnoredBitsChangeNothing : Prop :=
  (∀ w v : Word, opcodeField w = opcR → w &&& 0xFFFFF83F = v &&& 0xFFFFF83F →
    (decode w).toInstr = (decode v).toInstr) ∧
  (∀ (w : Word) (s : State), opcodeField w = opcR → functField w = params.fnSyscall →
    dispatch s w = dispatch s 0x0000000C)

/-- 30_encoding.md R83, R84, R95 with the info of 60_exceptions.md R190 (decision D8): a word decodes to an
instruction, or its opcode selects no family and is reported, or it has opcode 0 and its function code selects nothing
and is reported; each case exactly when its condition holds. -/
def Obligations.DecodeErrorsAreExact : Prop :=
  ∀ w : Word,
    (decode w = .error (.unknownOpcode (opcodeField w) w) ↔ opcodeField w ∉ knownOpcodes) ∧
    (decode w = .error (.unknownFunction (functField w) w) ↔ opcodeField w = opcR ∧ functField w ∉ knownFuncts) ∧
    ((∃ i : Instr, decode w = .instr i) ↔
      opcodeField w ∈ knownOpcodes ∧ (opcodeField w = opcR → functField w ∈ knownFuncts))

/-- 30_encoding.md R83, R84 (numbers by D1, log entry 5): of the 64 words with each primary opcode and zeros below it,
the decoder reports 59 as an unknown opcode; of the 64 words with primary opcode 0 and each function code, it reports 59
as an unknown function. -/
def Obligations.FiftyNineCodesOfEachKindSelectNothing : Prop :=
  ((List.range 64).filter fun n =>
    decode (BitVec.ofNat 32 (n * 2 ^ 26)) =
      .error (.unknownOpcode (BitVec.ofNat 6 n) (BitVec.ofNat 32 (n * 2 ^ 26)))).length = 59 ∧
  ((List.range 64).filter fun n =>
    decode (BitVec.ofNat 32 n) = .error (.unknownFunction (BitVec.ofNat 6 n) (BitVec.ofNat 32 n))).length = 59

/-- 30_encoding.md R72, R73: the fields of the immediate and of the jump format, from the most significant end; a word
with one of their opcodes decodes to its instruction with exactly these fields; `rs` is the source register, the one
register read, and `rt` the destination register, the one register that may change. -/
def Obligations.ImmediateAndJumpFormatsHaveTheirFields : Prop :=
  (∀ w : Word,
    w.toNat = (opcodeField w).toNat * 2 ^ 26 + (rsField w).toNat * 2 ^ 21 + (rtField w).toNat * 2 ^ 16 +
      (immField w).toNat ∧
    w.toNat = (opcodeField w).toNat * 2 ^ 26 + (addressField w).toNat ∧
    (opcodeField w = params.opcAddi → decode w = .instr (.addi (rsField w) (rtField w) (immField w))) ∧
    (opcodeField w = params.opcAddiu → decode w = .instr (.addiu (rsField w) (rtField w) (immField w))) ∧
    (opcodeField w = params.opcJ → decode w = .instr (.j (addressField w))) ∧
    (opcodeField w = params.opcJal → decode w = .instr (.jal (addressField w)))) ∧
  (∀ (rs rt : RegNum) (imm : Imm16) (s v : State), s.x rs = v.x rs →
    (∃ t u : State, exec (.addi rs rt imm) s = .next t ∧ exec (.addi rs rt imm) v = .next u ∧
      t.x rt = u.x rt ∧ ∀ r : RegNum, r ≠ rt → t.x r = s.x r) ∧
    (∃ t u : State, exec (.addiu rs rt imm) s = .next t ∧ exec (.addiu rs rt imm) v = .next u ∧
      t.x rt = u.x rt ∧ ∀ r : RegNum, r ≠ rt → t.x r = s.x r))

/-- Words written out from the spec's encodings decode to the instruction they stand for (95_test_vectors.md; numbers
by D1). -/
def Obligations.SampleWordsDecode : Prop :=
  decode 0x01095020 = .instr (.add 8 9 10) ∧
  decode 0x01095021 = .instr (.addu 8 9 10) ∧
  decode 0x01495022 = .instr (.sub 10 9 10) ∧
  decode 0x01095023 = .instr (.subu 8 9 10) ∧
  decode 0x0000000C = .instr .syscall ∧
  decode 0x21280003 = .instr (.addi 9 8 3) ∧
  decode 0x2508FFFF = .instr (.addiu 8 8 0xFFFF) ∧
  decode 0x0BFFFFFF = .instr (.j 0x3FFFFFF) ∧
  decode 0x0C000005 = .instr (.jal 5) ∧
  decode 0x00000000 = .error (.unknownFunction 0 0) ∧
  decode 0x8FA80004 = .error (.unknownOpcode 0x23 0x8FA80004)

/-- 30_encoding.md R88, R89 (D2, D24): an Instruction value with its mnemonic's operands has a word, which decodes to
the instruction the form stands for. Two clauses are choices: that an oversized literal is truncated (D10, log entry
13), and that a value with another number or other tags of operands has no word (the model's own choice, log entry 22:
R88 gives such a value no outcome). -/
def Obligations.AssembledFormsDecode : Prop :=
  ∀ l : AsmLine,
    (l.wellFormed = true → ∃ (w : Word) (i : Instr),
      l.assemble = some w ∧ l.instr = some i ∧ decode w = .instr i ∧ encode i = w) ∧
    (l.wellFormed = false → l.assemble = none)

/-- 10_state.md R24 (numbers by D2, log entry 6): the 32 names number the 32 registers, one each, and the three the
spec's rules name are numbered as its parameters. -/
def Obligations.RegisterNamesNumberTheRegisters : Prop :=
  (∀ a b : RegName, a.number = b.number → a = b) ∧ (∀ r : RegNum, ∃ a : RegName, a.number = r) ∧
  RegName.zero.number = 0 ∧ RegName.v0.number = params.regV0 ∧ RegName.a0.number = params.regA0 ∧
  RegName.ra.number = params.regRa

/-! Arithmetic (40_rtype_arith.md, 41_itype_arith.md). -/

/-- 40_rtype_arith.md R110, R111: `add` and `addu` complete in every state with every operand, write the sum modulo 2^32
to `rd` and nothing else; the word that selects each gives its operands; the two agree. The wrap modulo 2^32 is the
spec's decision D7 (R115, log entry 11), the write of register 0 its decision D3 (R117, log entry 7). -/
def Obligations.AddAndAdduWriteTheSum : Prop :=
  (∀ (rs rt rd : RegNum) (s : State), ∃ t : State,
    exec (.add rs rt rd) s = .next t ∧ exec (.addu rs rt rd) s = .next t ∧
    (t.x rd).toNat = ((s.x rs).toNat + (s.x rt).toNat) % 2 ^ 32 ∧ OnlyRegisterChanges rd s t) ∧
  (∀ w : Word, opcodeField w = 0 → functField w = params.fnAdd →
    decode w = .instr (.add (rsField w) (rtField w) (rdField w))) ∧
  (∀ w : Word, opcodeField w = 0 → functField w = params.fnAddu →
    decode w = .instr (.addu (rsField w) (rtField w) (rdField w)))

/-- 40_rtype_arith.md R112, R113: as above for `sub` and `subu`, the minuend `x[rs]`, the subtrahend `x[rt]`. The wrap is
the spec's decision D7 (R115, log entry 11), the write of register 0 its decision D3 (R117, log entry 7). -/
def Obligations.SubAndSubuWriteTheDifference : Prop :=
  (∀ (rs rt rd : RegNum) (s : State), ∃ t : State,
    exec (.sub rs rt rd) s = .next t ∧ exec (.subu rs rt rd) s = .next t ∧
    ((t.x rd).toNat : Int) = ((s.x rs).toNat - (s.x rt).toNat : Int) % 2 ^ 32 ∧ OnlyRegisterChanges rd s t) ∧
  (∀ w : Word, opcodeField w = 0 → functField w = params.fnSub →
    decode w = .instr (.sub (rsField w) (rtField w) (rdField w))) ∧
  (∀ w : Word, opcodeField w = 0 → functField w = params.fnSubu →
    decode w = .instr (.subu (rsField w) (rtField w) (rdField w)))

/-- 41_itype_arith.md sections 1, 2: `addi` and `addiu` complete in every state, add the immediate as a number in
0..65535 and write `rt` alone. Zero extension is the spec's decision D4 (log entry 8), the wrap modulo 2^32 its decision
D7 (R133, log entry 11), the write of register 0 its decision D3 (R134, log entry 7). -/
def Obligations.AddiAndAddiuAddTheUnsignedImmediate : Prop :=
  (∀ (rs rt : RegNum) (imm : Imm16) (s : State), ∃ t : State,
    exec (.addi rs rt imm) s = .next t ∧ exec (.addiu rs rt imm) s = .next t ∧
    (t.x rt).toNat = ((s.x rs).toNat + imm.toNat) % 2 ^ 32 ∧ OnlyRegisterChanges rt s t) ∧
  (∀ w : Word, opcodeField w = params.opcAddi → decode w = .instr (.addi (rsField w) (rtField w) (immField w))) ∧
  (∀ w : Word, opcodeField w = params.opcAddiu → decode w = .instr (.addiu (rsField w) (rtField w) (immField w)))

/-- 40_rtype_arith.md R115 (wrap is the spec's decision D7, log entry 11): read as signed, the written sum or
difference is the exact one where that lies in -2^31 .. 2^31 - 1, and 2^32 below or above it where it does not; the
run goes on. -/
def Obligations.SignedOverflowWrapsWithoutTrap : Prop :=
  ∀ (rs rt rd : RegNum) (s : State), ∃ t u : State,
    exec (.add rs rt rd) s = .next t ∧ exec (.sub rs rt rd) s = .next u ∧
    t.status = s.status ∧ u.status = s.status ∧
    (addOverflows (s.x rs) (s.x rt) = false → signed (t.x rd) = signed (s.x rs) + signed (s.x rt)) ∧
    (addOverflows (s.x rs) (s.x rt) = true → signed (t.x rd) =
      signed (s.x rs) + signed (s.x rt) - 2 ^ 32 * (if 0 ≤ signed (s.x rs) then 1 else -1)) ∧
    (subOverflows (s.x rs) (s.x rt) = false → signed (u.x rd) = signed (s.x rs) - signed (s.x rt)) ∧
    (subOverflows (s.x rs) (s.x rt) = true → signed (u.x rd) =
      signed (s.x rs) - signed (s.x rt) - 2 ^ 32 * (if 0 ≤ signed (s.x rs) then 1 else -1))

/-- 40_rtype_arith.md R116 (an inference of the spec, under D7): `add rd,rs,rt` then `sub rd,rd,rt` leaves `x[rs]` of
the start in `rd`, with no premise on overflow, where `rd` differs from `rt`; where it does not, it leaves 0. -/
def Obligations.AddThenSubRestoresTheSource : Prop :=
  ∀ (rs rt rd : RegNum) (s : State), ∃ t u : State,
    exec (.add rs rt rd) s = .next t ∧ exec (.sub rd rt rd) t = .next u ∧
    (rd ≠ rt → u.x rd = s.x rs) ∧ (rd = rt → u.x rd = 0) ∧ OnlyRegisterChanges rd s u

/-- 10_state.md R22 (decision D3, log entry 7): every register, register 0 too, returns the value written and no other
register changes; under `ZERO_HARDWIRED` register 0 reads 0 and a write of it has no effect, and every other register
is as before. -/
def Obligations.RegisterZeroIsOrdinaryUnlessHardwired : Prop :=
  (∀ (c : Config) (s : State) (i r : RegNum) (v : Word), c.zeroHardwired = false →
    (s.writeReg c i v).readReg c r = if r = i then v else s.readReg c r) ∧
  (∀ (c : Config) (s : State) (i r : RegNum) (v : Word), c.zeroHardwired = true →
    (s.writeReg c i v).readReg c r = if r = 0 then 0 else if r = i then v else s.readReg c r) ∧
  (∀ (c : Config) (s : State) (v : Word), c.zeroHardwired = true → s.writeReg c 0 v = s) ∧
  params.zeroHardwired = false

/-- 93_implementation_defined.md U2: while register 0 holds 0, a rule whose destination is not register 0 does the same
under both settings of `ZERO_HARDWIRED`, and register 0 still holds 0. -/
def Obligations.ZeroSettingIrrelevantWhileNotWritten : Prop :=
  ∀ (c : Config) (s : State), s.x 0 = 0 →
    (∀ (op : ArithOp) (rs rt rd : RegNum), rd ≠ 0 →
      regRule { c with zeroHardwired := true } op rs rt rd s = regRule { c with zeroHardwired := false } op rs rt rd s ∧
      (regRule { c with zeroHardwired := true } op rs rt rd s).x 0 = 0) ∧
    (∀ (rs rt : RegNum) (imm : Imm16), rt ≠ 0 →
      immRule { c with zeroHardwired := true } rs rt imm s = immRule { c with zeroHardwired := false } rs rt imm s ∧
      (immRule { c with zeroHardwired := true } rs rt imm s).x 0 = 0) ∧
    (syscallHandler { c with zeroHardwired := true } s = syscallHandler { c with zeroHardwired := false } s ∧
      (syscallHandler { c with zeroHardwired := true } s).x 0 = 0)

/-- 41_itype_arith.md R132, 93 U1: the immediate is widened to its unsigned value; the alternative setting differs
exactly when bit 15 is 1, and then reads 65536 less. -/
def Obligations.ImmediateSettingsAgreeBelow32768 : Prop :=
  params.immExtend = .zero ∧
  ∀ k : Imm16,
    (extendImm .zero k).toNat = k.toNat ∧
    signed (extendImm .sign k) = (if k.toNat < 32768 then (k.toNat : Int) else (k.toNat : Int) - 65536) ∧
    (extendImm .sign k = extendImm .zero k ↔ k.toNat < 32768)

/-! Jumps and the syscall (42_jtype.md, 43_syscall.md). -/

/-- 42_jtype.md (decisions D5, D8; log entries 9, 12): the whole effect of `j` and `jal`, in every state and for every
address, is the fault's entry with the opcode and the address; no register (not `ra`), not the pc, not memory and not
the output is written. -/
def Obligations.JumpsRaiseNotYetImplemented : Prop :=
  (∀ (a : Addr26) (s : State), ∃ t : State, exec (.j a) s = .next t ∧
    t.status = .faulted (.notYetImplemented params.opcJ a) ∧ OnlyStatusChanges s t) ∧
  (∀ (a : Addr26) (s : State), ∃ t : State, exec (.jal a) s = .next t ∧
    t.status = .faulted (.notYetImplemented params.opcJal a) ∧ OnlyStatusChanges s t) ∧
  (∀ w : Word, opcodeField w = params.opcJ → decode w = .instr (.j (addressField w))) ∧
  (∀ w : Word, opcodeField w = params.opcJal → decode w = .instr (.jal (addressField w)))

/-- 43_syscall.md R150, R151, R154 (text by D15, register numbers by D2): where the syscall number is 0, `syscall`
completes, the output grows by the printed line of `a0`, and nothing else changes. -/
def Obligations.SyscallZeroPrintsTheArgument : Prop :=
  (∀ s : State, s.x params.regV0 = 0 → ∃ t : State,
    exec .syscall s = .next t ∧ OnlyOutputGrows (printText (s.x params.regA0)) s t) ∧
  (∀ w : Word, opcodeField w = 0 → functField w = params.fnSyscall → decode w = .instr .syscall)

/-- 43_syscall.md R152 (decision D15, log entry 16): the printed line reads back as the signed value, has between 2 and
12 bytes, starts with a minus sign exactly for a negative value, and no shorter line reads back as that value. -/
def Obligations.PrintedLineIsTheShortestDecimal : Prop :=
  ∀ v : Word,
    readLine (printText v) = some (signed v) ∧
    2 ≤ (printText v).length ∧ (printText v).length ≤ 12 ∧
    ((printText v).head? = some minusByte ↔ signed v < 0) ∧
    (∀ line : List Byte, readLine line = some (signed v) → (printText v).length ≤ line.length)

/-- 60_exceptions.md R193 (the fault, its info and its empty output by D8, D16; log entries 12, 17): `syscall` raises
`UnsupportedSyscall` when the syscall number is not 0, and only then; it depends on the state and not on the ignored
bits of the word. -/
def Obligations.OtherSyscallNumbersFault : Prop :=
  ∀ (s : State) (w : Word), opcodeField w = 0 → functField w = params.fnSyscall → ∃ t : State,
    dispatch s w = .next t ∧ exec .syscall s = .next t ∧
    (s.x params.regV0 ≠ 0 →
      t.status = .faulted (.unsupportedSyscall (s.x params.regV0)) ∧ OnlyStatusChanges s t) ∧
    (s.x params.regV0 = 0 → t.status = s.status)

/-! What every instruction does (10_state.md, 20_memory.md, 60_exceptions.md). -/

/-- 10_state.md R23, R26 (D6): an instruction writes no register but its destination and not the pc; what it writes,
its fault and its output depend on no register but those it reads. -/
def Obligations.InstructionsReadAndWriteTheirRegistersOnly : Prop :=
  ∀ (i : Instr) (s v : State), s.status = v.status → (∀ r ∈ readSet i s, s.x r = v.x r) →
    ∃ (t u : State) (bytes : List Byte), exec i s = .next t ∧ exec i v = .next u ∧
      t.pc = s.pc ∧ (∀ r : RegNum, destination i ≠ some r → t.x r = s.x r) ∧
      (∀ r : RegNum, destination i = some r → t.x r = u.x r) ∧ t.status = u.status ∧
      t.out = s.out ++ bytes ∧ u.out = v.out ++ bytes

/-- R28, 20_memory.md R62: no instruction reads or writes the memory: with any other memory the same word does the same
and leaves that memory as it was. -/
def Obligations.MemoryIsNeitherReadNorWritten : Prop :=
  ∀ (s : State) (w : Word) (m : Mem), ∃ t : State,
    executeOne s w = .next t ∧ t.mem = s.mem ∧ executeOne { s with mem := m } w = .next { t with mem := m }

/-- R30: the output starts empty, only grows, and no instruction reads it. -/
def Obligations.OutputIsAppendedAndNeverRead : Prop :=
  State.reset.out = [] ∧
  ∀ (s : State) (w : Word), ∃ (t : State) (bytes : List Byte),
    executeOne s w = .next t ∧ t.out = s.out ++ bytes ∧
    ∀ o : List Byte, executeOne { s with out := o } w = .next { t with out := o ++ bytes }

/-- 45_step_and_run.md R172, 10_state.md R26 (conflict C1, decision D6, log entry 10): `execute_one` neither reads nor
writes the pc. -/
def Obligations.ExecuteOneIgnoresThePc : Prop :=
  ∀ (s : State) (w : Word) (p : BitVec 32), ∃ t : State,
    executeOne s w = .next t ∧ t.pc = s.pc ∧ executeOne { s with pc := p } w = .next { t with pc := p }

/-- 60_exceptions.md R190 to R194, R197: on a Running state a word raises a fault exactly under the condition of its
kind in the table of R190, and every other word leaves the state Running. The info is the spec's
decision D8 (log entry 12). -/
def Obligations.FaultsHaveExactlyTheirCauses : Prop :=
  ∀ (s : State) (w : Word), s.status = .running → ∃ t : State, dispatch s w = .next t ∧
    (t.status = .faulted (.unknownOpcode (opcodeField w) w) ↔ opcodeField w ∉ knownOpcodes) ∧
    (t.status = .faulted (.unknownFunction (functField w) w) ↔ opcodeField w = opcR ∧ functField w ∉ knownFuncts) ∧
    (t.status = .faulted (.unsupportedSyscall (s.x params.regV0)) ↔
      opcodeField w = opcR ∧ functField w = params.fnSyscall ∧ s.x params.regV0 ≠ 0) ∧
    (t.status = .faulted (.notYetImplemented (opcodeField w) (addressField w)) ↔
      opcodeField w = params.opcJ ∨ opcodeField w = params.opcJal) ∧
    (t.status = .running ↔
      (opcodeField w = opcR ∧ functField w ∈ knownFuncts ∧
        (functField w = params.fnSyscall → s.x params.regV0 = 0)) ∨
      opcodeField w = params.opcAddi ∨ opcodeField w = params.opcAddiu)

/-- 20_memory.md R61 (decision D18): the primitives inside 0..1023 read back what was written and leave every other index
alone; outside they refuse. That the memory is in canonical form, the premise, and that a write keeps the form are the
model's own data form (log entry 15), of which R61 does not speak. -/
def Obligations.MemoryPrimitivesReadBackAndStayCanonical : Prop :=
  (∀ (s : State) (i : Nat) (v : Word), s.mem.wf = true → i < 1024 → ∃ t : State, s.memWrite i v = .ok t ∧
    t.memRead i = .ok v ∧ (∀ k : Nat, k ≠ i → t.memRead k = s.memRead k) ∧
    t.mem.wf = true ∧ t = { s with mem := t.mem }) ∧
  (∀ (s : State) (i : Nat) (v : Word), 1024 ≤ i →
    s.memRead i = .error (.memIndexOutOfRange i) ∧ s.memWrite i v = .error (.memIndexOutOfRange i))

/-- The canonical form is one form: two canonical memories that read alike are the same data (the model's own form of
10_state.md R28, log entry 15). -/
def Obligations.CanonicalMemoriesThatReadAlikeAreEqual : Prop :=
  ∀ m n : Mem, m.wf = true → n.wf = true → (∀ i : Nat, i < 1024 → m.read i = n.read i) → m = n

/-! The step and the run (45_step_and_run.md, 70_reset_and_hazards.md). -/

/-- 10_state.md R36, 70_reset_and_hazards.md R220: after reset everything is zero, the status is Running and the output
is empty (status and output by the inference R36 marks as the spec's own, log entry 21). -/
def Obligations.ResetIsAllZero : Prop :=
  (∀ r : RegNum, State.reset.x r = 0) ∧ State.reset.pc = 0 ∧
  (∀ i : Nat, i < 1024 → State.reset.memRead i = .ok 0) ∧
  State.reset.status = .running ∧ State.reset.out = []

/-- 45_step_and_run.md R171 (D6, D23): where the word at the pc decodes to an instruction, the step of a Running state
is that instruction's meaning, and the pc advances by 1 where it did not fault. -/
def Obligations.StepRunsTheDecodedInstruction : Prop :=
  ∀ (s t : State) (w : Word) (i : Instr), s.status = .running → s.words[s.pc.toNat]? = some w →
    decode w = .instr i → exec i s = .next t →
    step s = .next (if t.status = .running then { t with pc := t.pc + 1 } else t)

/-- 45_step_and_run.md R171, 60_exceptions.md R191, R192, R195 (D6, D8): where the word at the pc does not decode, the
step records the decode fault and changes nothing else; the pc keeps the faulting index. -/
def Obligations.StepRecordsTheDecodeFault : Prop :=
  ∀ (s : State) (w : Word) (e : DecodeError), s.status = .running → s.words[s.pc.toNat]? = some w →
    decode w = .error e → step s = .next { s with status := .faulted (decodeFault e) }

/-- 45_step_and_run.md R174, R183 (D17, log entries 2, 18): on a Halted or a Faulted state the step changes nothing;
both entry points change nothing of a Faulted state, and `execute_many` nothing of a Halted one; `execute_one` on a
Halted state executes its word all the same. -/
def Obligations.StoppedRunsStayStopped : Prop :=
  (∀ s : State, s.phase ≠ .ready → step s = .next s) ∧
  (∀ (s : State) (f : Fault) (w : Word), s.status = .faulted f → executeOne s w = .next s) ∧
  (∀ (s : State) (f : Fault) (words : List Word), s.status = .faulted f →
    executeMany s words = .next (s.withStream words)) ∧
  (∀ (s : State) (words : List Word), words.length ≤ s.pc.toNat →
    executeMany s words = .next (s.withStream words)) ∧
  (∀ (s : State) (w : Word), s.phase = .halted → executeOne s w = dispatch s w)

/-- No stuck state: every step and both entry points answer a next state, from every state. The spec says so by
inferences it marks as its own (30_encoding.md R95, 45_step_and_run.md R177); that a fault's entry and a stopped run's
step too are next states is the model's form of it (log entries 1, 2). -/
def Obligations.EveryStepAnswersANextState : Prop :=
  (∀ s : State, ∃ t : State, step s = .next t) ∧
  (∀ (s : State) (w : Word), ∃ t : State, executeOne s w = .next t) ∧
  (∀ (s : State) (words : List Word), ∃ t : State, executeMany s words = .next t)

/-- 45_step_and_run.md R175: an instruction execution, by `execute_one` on any Running state (a Halted one too, R183,
D17) or by the step of a Ready state, either completes, with one register write or one line of output and nothing else,
or faults with no write of its own, all output before it kept. That the pc advances by 1 in the step that completes, and
stays otherwise, is R171 with decision D6 (log entry 10); that the fault is a next state is log entry 1. -/
def Obligations.AStepCompletesWholeOrFaultsWithNoWrite : Prop :=
  (∀ (s : State) (w : Word), s.status = .running → ∃ t : State, executeOne s w = .next t ∧
    (FaultsWithNoWrite s t ∨ (CompletesWhole s t ∧ t.pc = s.pc))) ∧
  (∀ s : State, s.phase = .ready → ∃ t : State, step s = .next t ∧
    (FaultsWithNoWrite s t ∨ (CompletesWhole s t ∧ t.pc = s.pc + 1)))

/-- 70_reset_and_hazards.md R229, with 45_step_and_run.md R173 (C4, C5): a Ready step goes to Ready or Halted with the pc
one further, so that no index is skipped or executed twice, or to Faulted. That the step of a Halted or a Faulted state
answers that same state is the model's form (log entry 2) of the spec's decision D17. -/
def Obligations.TheRunStateMachineHasTheseTransitionsOnly : Prop :=
  (∀ s : State, s.phase ≠ .ready → step s = .next s) ∧
  (∀ s : State, streamAdmitted s.words → s.phase = .ready → ∃ t : State, step s = .next t ∧
    t.words = s.words ∧
    ((t.phase = .ready ∧ t.pc.toNat = s.pc.toNat + 1 ∧ s.pc.toNat + 1 < s.words.length) ∨
     (t.phase = .halted ∧ t.pc.toNat = s.pc.toNat + 1 ∧ s.pc.toNat + 1 = s.words.length) ∨
     t.phase = .faulted))

/-- R229: over the turns of one run's loop: a Halted or a Faulted run stays so, for ever; turn `j` of a run that is still
Ready executes the index `j` further than the first, so no index is skipped and none executed twice; and a Ready turn
goes to Ready with the pc one further, to Halted at the stream's end, or to Faulted where the word has a cause of a
fault, and nowhere else. -/
def Obligations.ARunNeverGoesBackSkipsOrRepeats : Prop :=
  ∀ (s t : State) (j : Nat), streamAdmitted s.words → cycles j s = .next t →
    (∀ (k : Nat) (u : State), t.phase ≠ .ready → cycles k t = .next u → u.phase = t.phase) ∧
    (t.phase = .ready → t.pc.toNat = s.pc.toNat + j) ∧
    (∀ u : State, t.phase = .ready → step t = .next u →
      (u.phase = .ready ∧ u.pc.toNat = t.pc.toNat + 1) ∨
      (u.phase = .halted ∧ u.pc.toNat = t.words.length) ∨
      (u.phase = .faulted ∧ ∃ w : Word, t.words[t.pc.toNat]? = some w ∧ HasFaultCause t w))

/-- 20_memory.md R59, R62, 10_state.md R35 (inferences of the spec): no step changes the stream or the memory. -/
def Obligations.StepsKeepStreamAndMemory : Prop :=
  ∀ s t : State, step s = .next t → t.words = s.words ∧ t.mem = s.mem ∧ MemoryUnchanged s t

/-- 70_reset_and_hazards.md R228 (a), (b), (c), (f) (inferences of the spec): every step keeps the invariant, from every
state that meets it. -/
def Obligations.StepKeepsTheRunInvariant : Prop :=
  ∀ s t : State, RunInvariant s → step s = .next t → RunInvariant t

/-- R228: the invariant holds after reset, with any admitted stream supplied. -/
def Obligations.ResetMeetsTheRunInvariant : Prop :=
  ∀ words : List Word, streamAdmitted words → RunInvariant (State.reset.withStream words)

/-- The memory's canonical form is kept by every step (the model's own invariant, log entry 15), whatever the memory
holds. -/
def Obligations.StepKeepsMemoryCanonical : Prop :=
  ∀ s t : State, s.mem.wf = true → step s = .next t → t.mem.wf = true

/-- 45_step_and_run.md R171 (D6): `execute_many` on a Ready state is `execute_one` on the word at the pc, then, where it
did not fault, `execute_many` from the next index. -/
def Obligations.ExecuteManyUnrollsToExecuteOne : Prop :=
  ∀ (s t : State) (words : List Word) (w : Word), streamAdmitted words → s.status = .running →
    words[s.pc.toNat]? = some w → executeOne s w = .next t →
    (t.status = .running → executeMany s words = executeMany { t with pc := t.pc + 1 } words) ∧
    (∀ f : Fault, t.status = .faulted f → executeMany s words = .next (t.withStream words))

/-- 45_step_and_run.md R177, R179 (inferences of the spec): every run over an admitted stream ends, Halted or Faulted,
where a further step changes nothing; it never moves the pc back; a well-ended run started at `pc <= N` ends at `N`,
and a run that faults ends below `N`. -/
def Obligations.EveryRunEnds : Prop :=
  ∀ (s : State) (words : List Word), streamAdmitted words → ∃ t : State, executeMany s words = .next t ∧
    t.phase ≠ .ready ∧ step t = .next t ∧ t.words = words ∧ s.pc.toNat ≤ t.pc.toNat ∧
    (s.status = .running → s.pc.toNat ≤ words.length → EndedWell t → t.pc.toNat = words.length) ∧
    (s.status = .running → t.phase = .faulted → t.pc.toNat < words.length)

/-- 70_reset_and_hazards.md R228 (d) (an inference of the spec): after `k` turns of the loop a run that did not fault
has its pc `k` further, or at the end of the stream: the pc counts the completed instructions. -/
def Obligations.ThePcCountsCompletedInstructions : Prop :=
  ∀ (s t : State) (k : Nat), streamAdmitted s.words → s.status = .running → s.pc.toNat ≤ s.words.length →
    cycles k s = .next t →
    (t.status = .running → t.pc.toNat = min (s.pc.toNat + k) s.words.length) ∧
    (∀ f : Fault, t.status = .faulted f → s.pc.toNat ≤ t.pc.toNat ∧ t.pc.toNat < min (s.pc.toNat + k) s.words.length)

/-- 45_step_and_run.md R182 (an inference of the spec, under D3, D4, D7): a stream of `addi $r,$r,k` words, of any
length, run from reset, ends Halted with the pc at the instruction count, no output, and each register holding the sum
of the immediates applied to it, modulo 2^32. -/
def Obligations.AllAddiStreamsAccumulate : Prop :=
  ∀ pairs : List (RegNum × Imm16), pairs.length < 2 ^ 32 → ∃ t : State,
    executeMany State.reset (pairs.map fun p => encode (.addi p.1 p.1 p.2)) = .next t ∧
    EndedWell t ∧ t.pc.toNat = pairs.length ∧ t.out = [] ∧
    ∀ r : RegNum, (t.x r).toNat = immediateSum r pairs % 2 ^ 32

/-- 20_memory.md R56, 70_reset_and_hazards.md R226: outputs appear in program order: the output of a step begins with
all the output before it, and grows only by one printed line, at a `syscall` word with number 0. -/
def Obligations.OutputGrowsOnlyByPrintedLines : Prop :=
  ∀ s t : State, step s = .next t →
    t.out = s.out ∨
    (t.out = s.out ++ printText (s.x params.regA0) ∧ s.x params.regV0 = 0 ∧
      ∃ w : Word, s.words[s.pc.toNat]? = some w ∧ opcodeField w = opcR ∧ functField w = params.fnSyscall)
end

