-- ==== Sys2Proof/Laws/Config.lean ====
section
/-! SUPPORT. The values of the parameters, one lemma each (00_scope.md R5). Not tagged: a claim should rest on a named
value only where it must. -/

namespace Sys2Proof.Machine

theorem opcR_eq : opcR = 0 := rfl
theorem params_opcAddi : params.opcAddi = 0x08 := rfl
theorem params_opcAddiu : params.opcAddiu = 0x09 := rfl
theorem params_opcJ : params.opcJ = 0x02 := rfl
theorem params_opcJal : params.opcJal = 0x03 := rfl
theorem params_fnAdd : params.fnAdd = 0x20 := rfl
theorem params_fnAddu : params.fnAddu = 0x21 := rfl
theorem params_fnSub : params.fnSub = 0x22 := rfl
theorem params_fnSubu : params.fnSubu = 0x23 := rfl
theorem params_fnSyscall : params.fnSyscall = 0x0C := rfl
theorem params_regV0 : params.regV0 = 2 := rfl
theorem params_regA0 : params.regA0 = 4 := rfl
@[simp] theorem params_zeroHardwired : params.zeroHardwired = false := rfl
@[simp] theorem params_immExtend : params.immExtend = .zero := rfl
@[simp] theorem params_jumps : params.jumps = .fault := rfl
@[simp] theorem params_overflow : params.overflow = .wrap := rfl
/-- Not tagged: a rewrite of the width inside `BitVec.toNat` would make two spellings of one pc. Cite `State.pc_lt` and
`pcWord_add_one_toNat`. -/
theorem params_pcWidth : params.pcWidth = 32 := rfl

end Sys2Proof.Machine
end

