-- ==== Sys2Proof/Laws/Encoding.lean ====
section
/-! SUPPORT. What a field of a packed word reads as (30_encoding.md R71 to R73). -/

namespace Sys2Proof

open Machine

theorem placeField_getLsbD {n : Nat} (k : Nat) (v : BitVec n) (i : Nat) :
    (placeField k v).getLsbD i = (decide (i < 32) && decide (k ≤ i) && v.getLsbD (i - k)) := by
  simp only [placeField, BitVec.getLsbD_shiftLeft, BitVec.getLsbD_setWidth]
  by_cases h1 : i < 32 <;> by_cases h2 : k ≤ i <;> simp [h1, h2]
  have h3 : ¬ i < k := by omega
  have h4 : i - k < 32 := by omega
  simp [h3, h4]

theorem placeField_getElem {n : Nat} (k : Nat) (v : BitVec n) (i : Nat) (h : i < 32) :
    (placeField k v)[i] = (decide (k ≤ i) && v.getLsbD (i - k)) := by
  rw [← BitVec.getLsbD_eq_getElem, placeField_getLsbD]
  simp [h]

/-- A placed field reads back at its own place. -/
theorem extract_placeField {n : Nat} (k : Nat) (v : BitVec n) (h : k + n ≤ 32) :
    (placeField k v).extractLsb' k n = v := by
  ext i hi
  simp [BitVec.getElem_extractLsb', placeField_getLsbD, BitVec.getLsbD_eq_getElem hi]
  omega

/-- A field placed higher leaves 0 below it. -/
theorem extract_placeField_above {n m : Nat} (lo k : Nat) (v : BitVec m) (h : lo + n ≤ k) :
    (placeField k v).extractLsb' lo n = 0 := by
  ext i hi
  simp [BitVec.getElem_extractLsb', placeField_getLsbD]
  omega

/-- A field placed lower leaves 0 above it: it never spills. -/
theorem extract_placeField_below {n m : Nat} (lo k : Nat) (v : BitVec m) (h : k + m ≤ lo) :
    (placeField k v).extractLsb' lo n = 0 := by
  ext i hi
  simp [BitVec.getElem_extractLsb', placeField_getLsbD]
  intros
  exact BitVec.getLsbD_of_ge _ _ (by omega)

section
variable (rs rt rd : RegNum) (funct opcode : Code6) (imm : Imm16) (address : Addr26)

theorem opcodeField_packR : opcodeField (packR rs rt rd funct) = opcR := by
  simp [opcodeField, packR, BitVec.extractLsb'_or, extract_placeField, extract_placeField_below]

theorem rsField_packR : rsField (packR rs rt rd funct) = rs := by
  simp [rsField, packR, BitVec.extractLsb'_or, extract_placeField, extract_placeField_above, extract_placeField_below]

theorem rtField_packR : rtField (packR rs rt rd funct) = rt := by
  simp [rtField, packR, BitVec.extractLsb'_or, extract_placeField, extract_placeField_above, extract_placeField_below]

theorem rdField_packR : rdField (packR rs rt rd funct) = rd := by
  simp [rdField, packR, BitVec.extractLsb'_or, extract_placeField, extract_placeField_above, extract_placeField_below]

theorem shamtField_packR : shamtField (packR rs rt rd funct) = 0 := by
  simp [shamtField, packR, BitVec.extractLsb'_or, extract_placeField_above, extract_placeField_below]

theorem functField_packR : functField (packR rs rt rd funct) = funct := by
  simp [functField, packR, BitVec.extractLsb'_or, extract_placeField, extract_placeField_above]

theorem opcodeField_packI : opcodeField (packI opcode rs rt imm) = opcode := by
  simp [opcodeField, packI, BitVec.extractLsb'_or, extract_placeField, extract_placeField_below]

theorem rsField_packI : rsField (packI opcode rs rt imm) = rs := by
  simp [rsField, packI, BitVec.extractLsb'_or, extract_placeField, extract_placeField_above, extract_placeField_below]

theorem rtField_packI : rtField (packI opcode rs rt imm) = rt := by
  simp [rtField, packI, BitVec.extractLsb'_or, extract_placeField, extract_placeField_above, extract_placeField_below]

theorem immField_packI : immField (packI opcode rs rt imm) = imm := by
  simp [immField, packI, BitVec.extractLsb'_or, extract_placeField, extract_placeField_above]

theorem opcodeField_packJ : opcodeField (packJ opcode address) = opcode := by
  simp [opcodeField, packJ, BitVec.extractLsb'_or, extract_placeField, extract_placeField_below]

theorem addressField_packJ : addressField (packJ opcode address) = address := by
  simp [addressField, packJ, BitVec.extractLsb'_or, extract_placeField, extract_placeField_above]

end

/-- What consistency gives (00_scope.md R5). -/
theorem Config.consistent_iff (c : Config) : c.consistent = true ↔
    c.opcodesNonzero = true ∧ c.opcodesDistinct = true ∧ c.functsDistinct = true := by
  simp [Config.consistent, and_assoc]

theorem params_consistent : params.consistent = true := by decide

end Sys2Proof
end

