-- ==== Sys2Proof/Laws/Memory.lean ====
section
/-! SUPPORT. The laws of the memory list: a read after a write, and the canonical form that every write keeps. -/

namespace Sys2Proof.Machine

theorem Mem.wfFrom_cons (lo i : Nat) (v : Word) (m : Mem) :
    Mem.wfFrom lo ((i, v) :: m) = true ↔ lo ≤ i ∧ i < memWords ∧ v ≠ Mem.unlisted ∧ Mem.wfFrom (i + 1) m = true := by
  simp [Mem.wfFrom, and_assoc]

/-- The canonical form from an index is the canonical form from any lower one. -/
theorem Mem.wfFrom_mono {lo hi : Nat} (h : lo ≤ hi) : ∀ m : Mem, Mem.wfFrom hi m = true → Mem.wfFrom lo m = true
  | [], _ => rfl
  | (i, v) :: m, w => by
    rw [Mem.wfFrom_cons] at w ⊢
    exact ⟨h.trans w.1, w.2⟩

/-- Below the first index a canonical list may hold, every index is unlisted. -/
theorem Mem.read_below : ∀ (m : Mem) (lo i : Nat), Mem.wfFrom lo m = true → i < lo → m.read i = Mem.unlisted
  | [], _, _, _, _ => rfl
  | (j, v) :: m, lo, i, w, h => by
    rw [Mem.wfFrom_cons] at w
    have : i ≠ j := by omega
    simp [Mem.read, this, Mem.read_below m (j + 1) i w.2.2.2 (by omega)]

/-- The read after a write, on a canonical list. -/
theorem Mem.read_write : ∀ (m : Mem) (lo i k : Nat) (v : Word), Mem.wfFrom lo m = true →
    (m.write i v).read k = if k = i then v else m.read k
  | [], _, i, k, v, _ => by
    by_cases hv : v = Mem.unlisted <;> by_cases hk : k = i <;> simp [Mem.write, Mem.read, hv, hk]
  | (j, u) :: m, lo, i, k, v, w => by
    rw [Mem.wfFrom_cons] at w
    obtain ⟨-, -, -, wm⟩ := w
    by_cases h1 : i < j
    · by_cases hv : v = Mem.unlisted
      · by_cases hk : k = i
        · subst hk
          have : k ≠ j := by omega
          simp [Mem.write, Mem.read, h1, hv, this, Mem.read_below m (j + 1) k wm (by omega)]
        · simp [Mem.write, h1, hv, hk]
      · simp [Mem.write, Mem.read, h1, hv]
    · by_cases h2 : i = j
      · subst h2
        by_cases hv : v = Mem.unlisted
        · by_cases hk : k = i
          · subst hk; simp [Mem.write, hv, Mem.read_below m (k + 1) k wm (by omega)]
          · simp [Mem.write, Mem.read, hv, hk]
        · by_cases hk : k = i <;> simp [Mem.write, Mem.read, hv, hk]
      · have ih := Mem.read_write m (j + 1) i k v wm
        by_cases hk : k = j
        · have : k ≠ i := fun e => h2 (e.symm.trans hk)
          simp [Mem.write, Mem.read, h1, h2, hk, Ne.symm h2]
        · simp [Mem.write, Mem.read, h1, h2, hk, ih]

/-- A write keeps the canonical form. -/
theorem Mem.wfFrom_write : ∀ (m : Mem) (lo i : Nat) (v : Word), Mem.wfFrom lo m = true → lo ≤ i → i < memWords →
    Mem.wfFrom lo (m.write i v) = true
  | [], lo, i, v, _, h, hi => by
    by_cases hv : v = Mem.unlisted
    · simp [Mem.write, hv, Mem.wfFrom]
    · simp [Mem.write, hv, Mem.wfFrom, h, hi]
  | (j, u) :: m, lo, i, v, w, h, hi => by
    have wj := w
    rw [Mem.wfFrom_cons] at w
    by_cases h1 : i < j
    · by_cases hv : v = Mem.unlisted
      · simpa [Mem.write, h1, hv] using wj
      · simp only [Mem.write, h1, hv, if_true, if_false]
        rw [Mem.wfFrom_cons, Mem.wfFrom_cons]
        exact ⟨h, hi, hv, h1, w.2.1, w.2.2.1, w.2.2.2⟩
    · by_cases h2 : i = j
      · subst h2
        by_cases hv : v = Mem.unlisted
        · simpa [Mem.write, hv] using Mem.wfFrom_mono (by omega) m w.2.2.2
        · simp only [Mem.write, hv, Nat.lt_irrefl, if_true, if_false]
          rw [Mem.wfFrom_cons]
          exact ⟨h, hi, hv, w.2.2.2⟩
      · simp only [Mem.write, h1, h2, if_false]
        rw [Mem.wfFrom_cons]
        exact ⟨w.1, w.2.1, w.2.2.1, Mem.wfFrom_write m (j + 1) i v w.2.2.2 (by omega) hi⟩

/-- The memory primitive keeps the canonical form. -/
theorem Mem.wf_write (m : Mem) (i : Nat) (v : Word) (h : m.wf = true) (hi : i < memWords) : (m.write i v).wf = true :=
  Mem.wfFrom_write m 0 i v h (Nat.zero_le i) hi

/-- A memory write that answers a state writes that one word of memory, inside 0..1023, and nothing else. -/
theorem State.memWrite_cases {s t : State} {i : Nat} {v : Word} (h : s.memWrite i v = .ok t) :
    i < memWords ∧ t = { s with mem := s.mem.write i v } := by
  unfold State.memWrite at h
  split at h
  · exact ⟨‹_›, (Except.ok.inj h).symm⟩
  · cases h

theorem State.reset_mem_wf : State.reset.mem.wf = true := rfl

end Sys2Proof.Machine
end

