-- ==== Sys2Proof/Laws/PerInstr.lean ====
section
/-! SUPPORT. The statement made per instruction: its canonical word matches its own row of opcode_table.json
(30_encoding.md R80, R94). -/

namespace Sys2Proof.Laws.TableRow

open Sys2Proof.Machine

/-- The canonical word of an instruction, under its row's mask, is its row's match. -/
def Statement (i : Instr) : Prop := encode i &&& rowMask i = rowMatch i

/-- A register-format word under the row mask is its function code: the register fields are masked out. -/
theorem packR_masked (rs rt rd : RegNum) (funct : Code6) :
    packR rs rt rd funct &&& 0xFC00003F = placeField 0 funct := by
  apply BitVec.eq_of_getLsbD_eq
  intro i hi
  interval_cases i <;> simp [packR, placeField_getElem, opcR, BitVec.getLsbD_of_ge]

/-- An immediate-format word under the row mask is its opcode, placed. -/
theorem packI_masked (opcode : Code6) (rs rt : RegNum) (imm : Imm16) :
    packI opcode rs rt imm &&& 0xFC000000 = placeField 26 opcode := by
  apply BitVec.eq_of_getLsbD_eq
  intro i hi
  interval_cases i <;> simp [packI, placeField_getElem, BitVec.getLsbD_of_ge]

/-- A jump-format word under the row mask is its opcode, placed. -/
theorem packJ_masked (opcode : Code6) (address : Addr26) :
    packJ opcode address &&& 0xFC000000 = placeField 26 opcode := by
  apply BitVec.eq_of_getLsbD_eq
  intro i hi
  interval_cases i <;> simp [packJ, placeField_getElem, BitVec.getLsbD_of_ge]

theorem add (rs rt rd : RegNum) : Statement (.add rs rt rd) := packR_masked rs rt rd params.fnAdd

theorem addu (rs rt rd : RegNum) : Statement (.addu rs rt rd) := packR_masked rs rt rd params.fnAddu

theorem sub (rs rt rd : RegNum) : Statement (.sub rs rt rd) := packR_masked rs rt rd params.fnSub

theorem subu (rs rt rd : RegNum) : Statement (.subu rs rt rd) := packR_masked rs rt rd params.fnSubu

theorem syscall : Statement .syscall := packR_masked 0 0 0 params.fnSyscall

theorem addi (rs rt : RegNum) (imm : Imm16) : Statement (.addi rs rt imm) := packI_masked params.opcAddi rs rt imm

theorem addiu (rs rt : RegNum) (imm : Imm16) : Statement (.addiu rs rt imm) := packI_masked params.opcAddiu rs rt imm

theorem j (address : Addr26) : Statement (.j address) := packJ_masked params.opcJ address

theorem jal (address : Addr26) : Statement (.jal address) := packJ_masked params.opcJal address

end Sys2Proof.Laws.TableRow
end

