-- ==== Sys2Proof/Laws/State.lean ====
section
/-! SUPPORT. One lemma per field per named update of the state, so that no proof unfolds a record update. -/

namespace Sys2Proof.Machine

@[simp] theorem State.emit_regs (s : State) (b : List Byte) : (s.emit b).regs = s.regs := rfl
@[simp] theorem State.emit_pc (s : State) (b : List Byte) : (s.emit b).pc = s.pc := rfl
@[simp] theorem State.emit_mem (s : State) (b : List Byte) : (s.emit b).mem = s.mem := rfl
@[simp] theorem State.emit_status (s : State) (b : List Byte) : (s.emit b).status = s.status := rfl
@[simp] theorem State.emit_out (s : State) (b : List Byte) : (s.emit b).out = s.out ++ b := rfl
@[simp] theorem State.emit_words (s : State) (b : List Byte) : (s.emit b).words = s.words := rfl
@[simp] theorem State.emit_x (s : State) (b : List Byte) (r : RegNum) : (s.emit b).x r = s.x r := rfl

@[simp] theorem State.advancePc_regs (s : State) : (s.advancePc).regs = s.regs := rfl
@[simp] theorem State.advancePc_pc (s : State) : (s.advancePc).pc = s.pc + 1 := rfl
@[simp] theorem State.advancePc_mem (s : State) : (s.advancePc).mem = s.mem := rfl
@[simp] theorem State.advancePc_status (s : State) : (s.advancePc).status = s.status := rfl
@[simp] theorem State.advancePc_out (s : State) : (s.advancePc).out = s.out := rfl
@[simp] theorem State.advancePc_words (s : State) : (s.advancePc).words = s.words := rfl
@[simp] theorem State.advancePc_x (s : State) (r : RegNum) : (s.advancePc).x r = s.x r := rfl

/-- The pc counts below 2^32 (10_state.md R25, D12). -/
theorem State.pc_lt (s : State) : s.pc.toNat < 2 ^ 32 := s.pc.isLt

/-- The next index, where it is below 2^32, as it is inside every admitted stream: no wrap. -/
theorem pcWord_add_one_toNat (p : PcWord) (h : p.toNat + 1 < 2 ^ 32) : (p + 1).toNat = p.toNat + 1 :=
  (BitVec.toNat_add p 1).trans (Nat.mod_eq_of_lt h)

/-- The advance of the pc inside an admitted stream. -/
theorem State.advancePc_pc_toNat (s : State) (h : s.pc.toNat + 1 < 2 ^ 32) :
    s.advancePc.pc.toNat = s.pc.toNat + 1 :=
  pcWord_add_one_toNat s.pc h

@[simp] theorem State.raise_regs (s : State) (f : Fault) : (s.raise f).regs = s.regs := rfl
@[simp] theorem State.raise_pc (s : State) (f : Fault) : (s.raise f).pc = s.pc := rfl
@[simp] theorem State.raise_mem (s : State) (f : Fault) : (s.raise f).mem = s.mem := rfl
@[simp] theorem State.raise_status (s : State) (f : Fault) : (s.raise f).status = .faulted f := rfl
@[simp] theorem State.raise_out (s : State) (f : Fault) : (s.raise f).out = s.out := rfl
@[simp] theorem State.raise_words (s : State) (f : Fault) : (s.raise f).words = s.words := rfl
@[simp] theorem State.raise_x (s : State) (f : Fault) (r : RegNum) : (s.raise f).x r = s.x r := rfl

@[simp] theorem State.withStream_regs (s : State) (ws : List Word) : (s.withStream ws).regs = s.regs := rfl
@[simp] theorem State.withStream_pc (s : State) (ws : List Word) : (s.withStream ws).pc = s.pc := rfl
@[simp] theorem State.withStream_mem (s : State) (ws : List Word) : (s.withStream ws).mem = s.mem := rfl
@[simp] theorem State.withStream_status (s : State) (ws : List Word) : (s.withStream ws).status = s.status := rfl
@[simp] theorem State.withStream_out (s : State) (ws : List Word) : (s.withStream ws).out = s.out := rfl
@[simp] theorem State.withStream_words (s : State) (ws : List Word) : (s.withStream ws).words = ws := rfl
@[simp] theorem State.withStream_x (s : State) (ws : List Word) (r : RegNum) : (s.withStream ws).x r = s.x r := rfl

@[simp] theorem State.writeReg_pc (s : State) (c : Config) (i : RegNum) (v : Word) :
    (s.writeReg c i v).pc = s.pc := by
  unfold State.writeReg; split <;> rfl
@[simp] theorem State.writeReg_mem (s : State) (c : Config) (i : RegNum) (v : Word) :
    (s.writeReg c i v).mem = s.mem := by
  unfold State.writeReg; split <;> rfl
@[simp] theorem State.writeReg_status (s : State) (c : Config) (i : RegNum) (v : Word) :
    (s.writeReg c i v).status = s.status := by
  unfold State.writeReg; split <;> rfl
@[simp] theorem State.writeReg_out (s : State) (c : Config) (i : RegNum) (v : Word) :
    (s.writeReg c i v).out = s.out := by
  unfold State.writeReg; split <;> rfl
@[simp] theorem State.writeReg_words (s : State) (c : Config) (i : RegNum) (v : Word) :
    (s.writeReg c i v).words = s.words := by
  unfold State.writeReg; split <;> rfl

/-- Reading a register under the spec's parameters is reading its cell (10_state.md R22, R23). -/
@[simp] theorem State.readReg_params (s : State) (i : RegNum) : s.readReg params i = s.x i := by
  simp [State.readReg]

/-- A register cell after a write under the spec's parameters: the value at the register written, register 0 too, and
the old cell elsewhere. -/
theorem State.writeReg_params_x (s : State) (i r : RegNum) (v : Word) :
    (s.writeReg params i v).x r = if r = i then v else s.x r := by
  simp only [State.writeReg, params_zeroHardwired, State.x]
  by_cases h : r = i
  · subst h; simp
  · have : i.toNat ≠ r.toNat := fun e => h (BitVec.eq_of_toNat_eq e.symm)
    simp [this, h]

/-- Equal memories read alike at every index. -/
theorem State.memRead_congr (s t : State) (h : t.mem = s.mem) (i : Nat) : t.memRead i = s.memRead i := by
  simp [State.memRead, h]

end Sys2Proof.Machine
end

