-- ==== Sys2Proof/Laws/Step.lean ====
section
/-! SUPPORT. Once per shared operation, everything it can do: the rules, the dispatcher, the entry points, the step. -/

namespace Sys2Proof.Machine

theorem exec_add (rs rt rd : RegNum) (s : State) :
    exec (.add rs rt rd) s = .next (s.writeReg params rd (s.x rs + s.x rt)) := by
  simp [exec, execAdd, regRule, arith, add32]

theorem exec_addu (rs rt rd : RegNum) (s : State) :
    exec (.addu rs rt rd) s = .next (s.writeReg params rd (s.x rs + s.x rt)) := by
  simp [exec, execAddu, regRule, arith, add32]

theorem exec_sub (rs rt rd : RegNum) (s : State) :
    exec (.sub rs rt rd) s = .next (s.writeReg params rd (s.x rs - s.x rt)) := by
  simp [exec, execSub, regRule, arith, sub32]

theorem exec_subu (rs rt rd : RegNum) (s : State) :
    exec (.subu rs rt rd) s = .next (s.writeReg params rd (s.x rs - s.x rt)) := by
  simp [exec, execSubu, regRule, arith, sub32]

theorem exec_addi (rs rt : RegNum) (imm : Imm16) (s : State) :
    exec (.addi rs rt imm) s = .next (s.writeReg params rt (s.x rs + imm.setWidth 32)) := by
  simp [exec, execAddi, immRule, arith, add32, extendImm, zext32]

theorem exec_addiu (rs rt : RegNum) (imm : Imm16) (s : State) :
    exec (.addiu rs rt imm) s = .next (s.writeReg params rt (s.x rs + imm.setWidth 32)) := by
  simp [exec, execAddiu, immRule, arith, add32, extendImm, zext32]

theorem exec_j (address : Addr26) (s : State) :
    exec (.j address) s = .next (s.raise (.notYetImplemented params.opcJ address)) := rfl

theorem exec_jal (address : Addr26) (s : State) :
    exec (.jal address) s = .next (s.raise (.notYetImplemented params.opcJal address)) := rfl

theorem exec_syscall (s : State) :
    exec .syscall s = .next (if s.x params.regV0 = sysPrintInt then s.emit (printText (s.x params.regA0))
      else s.raise (.unsupportedSyscall (s.x params.regV0))) := by
  simp [exec, execSyscall, syscallHandler]

/-- The three things an execution can do to a state: write one register, print a line, or raise a fault. -/
inductive Effect (s : State) : State → Prop where
  | write (r : RegNum) (v : Word) : Effect s (s.writeReg params r v)
  | print (h : s.x params.regV0 = sysPrintInt) : Effect s (s.emit (printText (s.x params.regA0)))
  | fault (f : Fault) : Effect s (s.raise f)

/-- Every instruction answers a next state, by one of the three effects. -/
theorem exec_effect (i : Instr) (s : State) : ∃ t, exec i s = .next t ∧ Effect s t := by
  cases i with
  | add rs rt rd => exact ⟨_, exec_add rs rt rd s, .write _ _⟩
  | addu rs rt rd => exact ⟨_, exec_addu rs rt rd s, .write _ _⟩
  | sub rs rt rd => exact ⟨_, exec_sub rs rt rd s, .write _ _⟩
  | subu rs rt rd => exact ⟨_, exec_subu rs rt rd s, .write _ _⟩
  | addi rs rt imm => exact ⟨_, exec_addi rs rt imm s, .write _ _⟩
  | addiu rs rt imm => exact ⟨_, exec_addiu rs rt imm s, .write _ _⟩
  | j a => exact ⟨_, exec_j a s, .fault _⟩
  | jal a => exact ⟨_, exec_jal a s, .fault _⟩
  | syscall =>
    refine ⟨_, exec_syscall s, ?_⟩
    split
    · exact .print ‹_›
    · exact .fault _

/-- Every word answers a next state, by one of the three effects. -/
theorem dispatch_effect (s : State) (w : Word) : ∃ t, dispatch s w = .next t ∧ Effect s t := by
  unfold dispatch
  split
  · exact exec_effect _ s
  · exact ⟨_, rfl, .fault _⟩

theorem executeOne_running {s : State} (w : Word) (h : s.status = .running) : executeOne s w = dispatch s w := by
  simp [executeOne, h]

theorem executeOne_faulted {s : State} {f : Fault} (w : Word) (h : s.status = .faulted f) :
    executeOne s w = .next s := by
  simp [executeOne, h]

theorem step_faulted {s : State} {f : Fault} (h : s.status = .faulted f) : step s = .next s := by
  simp [step, cycle, h]

theorem step_halted {s : State} (h : s.status = .running) (hf : s.fetch = none) : step s = .next s := by
  simp [step, cycle, h, hf]

theorem step_fetched {s t : State} {w : Word} (h : s.status = .running) (hf : s.fetch = some w)
    (hd : dispatch s w = .next t) : step s = .next (advance t) := by
  simp [step, cycle, h, hf, executeOne_running, hd]

/-- Everything a step can do: nothing on a stopped state, or one word's effect and the pc's advance. -/
theorem step_cases {s t : State} (h : step s = .next t) :
    (t = s ∧ (s.fetch = none ∨ ∃ f, s.status = .faulted f)) ∨
    (∃ w u, s.status = .running ∧ s.fetch = some w ∧ dispatch s w = .next u ∧ Effect s u ∧ t = advance u) := by
  cases hs : s.status with
  | faulted f =>
    rw [step_faulted hs] at h
    exact .inl ⟨(Host.Outcome.next.inj h).symm, .inr ⟨f, rfl⟩⟩
  | running =>
    cases hf : s.fetch with
    | none =>
      rw [step_halted hs hf] at h
      exact .inl ⟨(Host.Outcome.next.inj h).symm, .inl rfl⟩
    | some w =>
      obtain ⟨u, hd, he⟩ := dispatch_effect s w
      rw [step_fetched hs hf hd] at h
      exact .inr ⟨w, u, rfl, rfl, hd, he, (Host.Outcome.next.inj h).symm⟩

/-- The fetch reads the stream inside its length only (45_step_and_run.md R176). -/
theorem State.fetch_eq_none_iff (s : State) : s.fetch = none ↔ s.words.length ≤ s.pc.toNat := by
  simp [State.fetch]

/-- The word placed at an index is read there. -/
theorem placeWord_getElem : ∀ (ws : List Word) (k : Nat) (w : Word), (placeWord ws k w)[k]? = some w
  | [], 0, _ => rfl
  | _ :: _, 0, _ => rfl
  | [], k + 1, w => by simpa [placeWord] using placeWord_getElem [] k w
  | _ :: rest, k + 1, w => by simpa [placeWord] using placeWord_getElem rest k w

/-- The placed word is the one the step fetches, on a Running state. -/
theorem State.withFetchWord_fetch (s : State) (nbits w : Nat) :
    (s.withFetchWord nbits w).status = .running ∧ (s.withFetchWord nbits w).fetch = some (tableWord nbits w) :=
  ⟨rfl, placeWord_getElem _ _ _⟩

end Sys2Proof.Machine
end

