-- ==== Sys2Proof/Tests/Slice0.lean ====
section
/-! SUPPORT. The model's own tests. Expected results are the spec's: the vectors of 95_test_vectors.md (named in each
docstring) and the worked examples of the rules. -/

namespace Sys2Proof.Tests

open Sys2Proof.Machine

/-- The reset state with some registers written. -/
def withRegs (l : List (RegNum × Word)) : State :=
  l.foldl (fun s p => s.writeReg params p.1 p.2) State.reset

/-- The reset state with a stream supplied. -/
def withWords (ws : List Word) : State := State.reset.withStream ws

/-- A register of the state an outcome goes on to. -/
def regAfter (o : Host.Outcome State Fault Refusal) (r : RegNum) : Option Word := (nextState o).map fun t => t.x r

/-- The status of the state an outcome goes on to. -/
def statusAfter (o : Host.Outcome State Fault Refusal) : Option Status := (nextState o).map State.status

/-- The output of the state an outcome goes on to. -/
def outAfter (o : Host.Outcome State Fault Refusal) : Option (List Byte) := (nextState o).map State.out

/-- The pc of the state an outcome goes on to. -/
def pcAfter (o : Host.Outcome State Fault Refusal) : Option PcWord := (nextState o).map State.pc

/-! Well-formedness: an ill-formed term for each check (00_scope.md R5; 30_encoding.md R78, R88, R89). -/

theorem test_zero_opcode_refused : ({ params with opcJ := 0 } : Config).opcodesNonzero = false := by decide

theorem test_shared_opcode_refused : ({ params with opcJal := params.opcJ } : Config).opcodesDistinct = false := by
  decide

theorem test_shared_funct_refused : ({ params with fnAddu := params.fnSyscall } : Config).functsDistinct = false := by
  decide

theorem test_inconsistent_refused : ({ params with opcJ := 0 } : Config).consistent = false := by decide

theorem test_missing_operand_refused : (AsmLine.mk .add [.reg .t2, .reg .t0]).wellFormed = false := by decide

theorem test_wrong_tag_refused : (AsmLine.mk .addi [.reg .t0, .imm 5, .reg .zero]).wellFormed = false := by decide

theorem test_oversized_literal_refused : (AsmLine.mk .addi [.reg .t0, .reg .zero, .imm 65536]).fits = false := by decide

theorem test_oversized_address_refused : (AsmLine.mk .j [.imm 67108864]).fits = false := by decide

theorem test_long_stream_refused (ws : List Word) (h : ws.length = 2 ^ 32) : ¬ streamAdmitted ws :=
  Nat.not_lt.mpr h.ge

/-! Decoding: each constructor from a word written out bit by bit (30_encoding.md R71 to R73, R80). -/

/-- opcode 000000, rs 01000, rt 01001, rd 01010, shamt 00000, funct 100000 (V-ENC2) -/
theorem test_decode_add : decode 0b00000001000010010101000000100000 = .instr (.add 8 9 10) := by decide

/-- funct 100001 -/
theorem test_decode_addu : decode 0b00000001000010010101000000100001 = .instr (.addu 8 9 10) := by decide

/-- rs 01010, rt 01001, rd 01010, funct 100010 (S3) -/
theorem test_decode_sub : decode 0b00000001010010010101000000100010 = .instr (.sub 10 9 10) := by decide

/-- funct 100011 -/
theorem test_decode_subu : decode 0b00000001000010010101000000100011 = .instr (.subu 8 9 10) := by decide

/-- opcode 000000, all else 0, funct 001100 (R94) -/
theorem test_decode_syscall : decode 0b00000000000000000000000000001100 = .instr .syscall := by decide

/-- opcode 001000, rs 01001, rt 01000, imm 3 (V-IT13) -/
theorem test_decode_addi : decode 0b00100001001010000000000000000011 = .instr (.addi 9 8 3) := by decide

/-- opcode 001001, rs 01000, rt 01000, imm 10 (R131) -/
theorem test_decode_addiu : decode 0b00100101000010000000000000001010 = .instr (.addiu 8 8 10) := by decide

/-- opcode 000010, address all ones (V-JT3) -/
theorem test_decode_j : decode 0b00001011111111111111111111111111 = .instr (.j 67108863) := by decide

/-- opcode 000011, address 5 (V-JT5) -/
theorem test_decode_jal : decode 0b00001100000000000000000000000101 = .instr (.jal 5) := by decide

/-- V-DEC13: shamt is ignored -/
theorem test_decode_ignores_shamt : decode 0x010951E0 = .instr (.add 8 9 10) := by decide

/-- V-DEC15: bits 25:6 of syscall are ignored -/
theorem test_decode_syscall_ignored_bits : decode 0x03FFFFCC = .instr .syscall := by decide

/-- V-DEC5, V-DEC10: function 8 and opcode 0x0A select nothing -/
theorem test_decode_unknown :
    decode 0x00000008 = .error (.unknownFunction 0x08 0x00000008) ∧
    decode 0x28000000 = .error (.unknownOpcode 0x0A 0x28000000) := by decide

/-- The table's numbering of bits, at its 32 bits and short of them. -/
theorem test_decode_table_word :
    decodeTableWord 32 0x20080005 = some (.addi 0 8 5) ∧ decodeTableWord 6 0x2C = none ∧
    decodeTableWord 6 0x20 = some (.add 0 0 0) := by decide

/-! Encoding (95_test_vectors.md, V-ENC). -/

/-- V-ENC4, V-ENC5, V-ENC7: the largest fields, and truncation without a spill -/
theorem test_encodeR :
    encodeR 31 31 31 63 = 0x03FFF83F ∧ encodeR 40 9 10 0x20 = 0x01095020 ∧ encodeR 8 9 10 0x60 = 0x01095020 := by decide

/-- V-ENC13, V-ENC15, V-ENC17, V-ENC18 -/
theorem test_encodeI :
    encodeI 0x3F 31 31 65535 = 0xFFFFFFFF ∧ encodeI 0x08 0 8 65539 = 0x20080003 ∧
    encodeI 0x48 0 8 5 = 0x20080005 ∧ encodeI 0x23 29 8 4 = 0x8FA80004 := by decide

/-- V-ENC22, V-ENC24, V-ENC25 -/
theorem test_encodeJ :
    encodeJ 0x03 67108863 = 0x0FFFFFFF ∧ encodeJ 0x02 67108871 = 0x08000007 ∧ encodeJ 0x42 5 = 0x08000005 := by decide

/-- S7: the source's four lines -/
theorem test_assemble :
    (AsmLine.mk .addi [.reg .t0, .reg .zero, .imm 5]).assemble = some 0x20080005 ∧
    (AsmLine.mk .add [.reg .t2, .reg .t0, .reg .t1]).assemble = some 0x01095020 ∧
    (AsmLine.mk .sub [.reg .a0, .reg .zero, .reg .t0]).assemble = some 0x00082022 ∧
    (AsmLine.mk .syscall []).assemble = some 0x0000000C := by decide

/-! Arithmetic (V-RT, V-IT). -/

/-- V-RT3: signed overflow of the sum wraps -/
theorem test_add_wraps :
    regAfter (exec (.add 8 9 10) (withRegs [(8, 0x7FFFFFFF), (9, 1)])) 10 = some 0x80000000 := by decide

/-- V-RT14: register 0 is written and keeps the value -/
theorem test_add_writes_register_zero :
    regAfter (exec (.add 8 9 0) (withRegs [(8, 5), (9, 7)])) 0 = some 12 := by decide

/-- V-RT10: both sources are read before the write -/
theorem test_add_alias : regAfter (exec (.add 8 8 8) (withRegs [(8, 21)])) 8 = some 42 := by decide

/-- R111's worked example -/
theorem test_addu_drops_carry :
    regAfter (exec (.addu 8 9 10) (withRegs [(8, 0xFFFFFFFF), (9, 1)])) 10 = some 0 := by decide

/-- V-RT13: the minuend is rs, the subtrahend rt, with rd = rt -/
theorem test_sub_order : regAfter (exec (.sub 8 9 9) (withRegs [(8, 5), (9, 7)])) 9 = some 0xFFFFFFFE := by decide

/-- V-RT4 -/
theorem test_sub_wraps :
    regAfter (exec (.sub 8 9 10) (withRegs [(8, 0x80000000), (9, 1)])) 10 = some 0x7FFFFFFF := by decide

/-- R113's worked example -/
theorem test_subu_borrow : regAfter (exec (.subu 8 9 10) (withRegs [(9, 1)])) 10 = some 0xFFFFFFFF := by decide

/-- V-IT7: the immediate 65535 adds 65535 -/
theorem test_addi_zero_extends : regAfter (exec (.addi 8 8 0xFFFF) (withRegs [(8, 1)])) 8 = some 0x00010000 := by decide

/-- V-IT13: the destination is rt, the source rs -/
theorem test_addi_fields : regAfter (exec (.addi 9 8 3) (withRegs [(8, 100), (9, 4)])) 8 = some 7 := by decide

/-- V-IT10 -/
theorem test_addiu_wraps : regAfter (exec (.addiu 8 8 0xFFFF) (withRegs [(8, 0xFFFF0001)])) 8 = some 0 := by decide

/-- R132: the alternative setting, unused by the machine -/
theorem test_sign_extension_alternative : extendImm .sign 0x8000 = 0xFFFF8000 ∧ extendImm .zero 0x8000 = 0x8000 := by
  decide

/-! Jumps (V-JT). -/

/-- V-JT2 -/
theorem test_j_faults : statusAfter (exec (.j 5) State.reset) = some (.faulted (.notYetImplemented 0x02 5)) := by decide

/-- V-JT5: the link register is not written -/
theorem test_jal_faults :
    statusAfter (exec (.jal 5) State.reset) = some (.faulted (.notYetImplemented 0x03 5)) ∧
    regAfter (exec (.jal 5) State.reset) 31 = some 0 := by decide

/-! The syscall (V-SYS). -/

/-- S4, V-SYS2: "42\n" -/
theorem test_syscall_prints_42 : outAfter (exec .syscall (withRegs [(4, 42)])) = some [0x34, 0x32, 0x0A] := by decide

/-- V-SYS8: "-2147483648\n" -/
theorem test_print_most_negative :
    printText 0x80000000 = [0x2D, 0x32, 0x31, 0x34, 0x37, 0x34, 0x38, 0x33, 0x36, 0x34, 0x38, 0x0A] := by decide

/-- V-SYS4: "1000000000\n" -/
theorem test_print_inner_zeros :
    printText 0x3B9ACA00 = [0x31, 0x30, 0x30, 0x30, 0x30, 0x30, 0x30, 0x30, 0x30, 0x30, 0x0A] := by decide

/-- V-SYS1, V-SYS6: "0\n", "-1\n" -/
theorem test_print_zero_and_minus_one :
    printText 0 = [0x30, 0x0A] ∧ printText 0xFFFFFFFF = [0x2D, 0x31, 0x0A] := by decide

/-- V-SYS13: all 32 bits of the number are compared, and nothing is printed -/
theorem test_syscall_unsupported :
    statusAfter (exec .syscall (withRegs [(2, 0x100)])) = some (.faulted (.unsupportedSyscall 0x100)) ∧
    outAfter (exec .syscall (withRegs [(2, 0x100)])) = some [] := by decide

/-! The step and the run (V-RUN). -/

/-- V-RUN2, V-RUN3: `execute_one` leaves the pc, the step advances it -/
theorem test_pc_advance :
    pcAfter (executeOne State.reset 0x20080005) = some 0 ∧ pcAfter (step (withWords [0x20080005])) = some 1 := by decide

/-- V-RUN1, V-RUN5: a Halted state stays as it is -/
theorem test_halted_stays :
    nextState (step State.reset) = some State.reset ∧
    nextState (executeMany { State.reset with pc := 7 } [0x20080005]) =
      some { State.reset with pc := 7, words := [0x20080005] } := by decide

/-- V-RUN9: the pc stays at the faulting index -/
theorem test_fault_keeps_pc :
    pcAfter (executeMany State.reset [0x20040003, 0x00000000, 0x0000000C]) = some 1 ∧
    statusAfter (executeMany State.reset [0x20040003, 0x00000000, 0x0000000C]) =
      some (.faulted (.unknownFunction 0x00 0x00000000)) ∧
    outAfter (executeMany State.reset [0x20040003, 0x00000000, 0x0000000C]) = some [] := by decide

/-- V-RUN6: Faulted is sticky -/
theorem test_faulted_is_sticky :
    nextState (executeOne (State.reset.raise (.notYetImplemented 2 5)) 0x20080005) =
      some (State.reset.raise (.notYetImplemented 2 5)) := by decide

/-- R190: the spec's ordinal codes -/
theorem test_fault_codes :
    (Fault.unknownOpcode 0 0).code = 1 ∧ (Fault.unknownFunction 0 0).code = 2 ∧
    (Fault.unsupportedSyscall 0).code = 3 ∧ (Fault.notYetImplemented 0 0).code = 4 := by decide

/-- The placed word runs at the next step, from reset and at a pc past the stream's end -/
theorem test_withFetchWord :
    regAfter (step (State.reset.withFetchWord 32 0x20080005)) 8 = some 5 ∧
    regAfter (step (({ State.reset with pc := 2 } : State).withFetchWord 32 0x20080005)) 8 = some 5 := by decide

/-- R61: an index outside 0..1023 is refused, the last index is not -/
theorem test_memory_edge :
    (State.reset.memRead 1024).toOption = none ∧ (State.reset.memRead 1023).toOption = some 0 := by decide

/-- A write of what an unlisted index reads as removes the entry -/
theorem test_memory_canonical :
    Mem.write (Mem.write [] 5 7) 5 0 = [] ∧ Mem.write (Mem.write [] 5 7) 3 9 = [(3, 9), (5, 7)] ∧
    Mem.wf [(5, 7), (3, 9)] = false ∧ Mem.wf [(5, 0)] = false ∧ Mem.wf [(1024, 1)] = false := by decide

/-! Witnesses: for each statement with hypotheses, data that meets them together. -/

theorem witness_consistent : params.consistent = true := by decide

theorem witness_reencode : decodeWith params 0x010951E0 = .instr (.add 8 9 10) := by decide

theorem witness_ignored_bits :
    opcodeField 0x01095020 = opcR ∧ (0x01095020 : Word) &&& 0xFFFFF83F = 0x010951E0 &&& 0xFFFFF83F ∧
    opcodeField 0x03FFFFCC = opcR ∧ functField 0x03FFFFCC = params.fnSyscall := by decide

theorem witness_assembled :
    (AsmLine.mk .addi [.reg .t0, .reg .zero, .imm 65536]).wellFormed = true ∧
    (AsmLine.mk .j []).wellFormed = false := by decide

theorem witness_register_words :
    opcodeField 0x01095020 = 0 ∧ functField 0x01095020 = params.fnAdd ∧
    opcodeField 0x01095021 = 0 ∧ functField 0x01095021 = params.fnAddu ∧
    opcodeField 0x01095022 = 0 ∧ functField 0x01095022 = params.fnSub ∧
    opcodeField 0x01095023 = 0 ∧ functField 0x01095023 = params.fnSubu ∧
    opcodeField 0x0000000C = 0 ∧ functField 0x0000000C = params.fnSyscall := by decide

theorem witness_opcode_words :
    opcodeField 0x20080005 = params.opcAddi ∧ opcodeField 0x24080005 = params.opcAddiu ∧
    opcodeField 0x08000005 = params.opcJ ∧ opcodeField 0x0C000005 = params.opcJal := by decide

theorem witness_overflow_both_ways :
    addOverflows 0x7FFFFFFF 1 = true ∧ addOverflows 0x80000000 0xFFFFFFFF = true ∧ addOverflows 0x7FFFFFFE 1 = false ∧
    subOverflows 0x80000000 1 = true ∧ subOverflows 0 0x80000000 = true ∧ subOverflows 0x80000001 1 = false := by decide

theorem witness_zero_settings :
    ({ params with zeroHardwired := true } : Config).zeroHardwired = true ∧ params.zeroHardwired = false ∧
    (withRegs [(8, 5)]).x 0 = 0 ∧ (8 : RegNum) ≠ 0 := by decide

theorem witness_syscall_numbers :
    (withRegs [(4, 42)]).x params.regV0 = 0 ∧ (withRegs [(2, 1)]).x params.regV0 ≠ 0 := by decide

theorem witness_read_line : readLine [0x30, 0x34, 0x32, 0x0A] = some (signed 42) := by decide

theorem witness_read_set :
    (withRegs [(8, 5), (9, 7)]).status = (withRegs [(8, 5), (9, 7), (11, 3)]).status ∧
    (∀ r ∈ readSet (.add 8 9 10) (withRegs [(8, 5), (9, 7)]),
      (withRegs [(8, 5), (9, 7)]).x r = (withRegs [(8, 5), (9, 7), (11, 3)]).x r) := by decide

theorem witness_running : State.reset.status = .running := by decide

theorem witness_memory : Mem.wf [(3, 9), (1023, 7)] = true ∧ 1023 < 1024 ∧ 1024 ≤ 1024 := by decide

theorem witness_memories_alike :
    Mem.wf [(3, 9)] = true ∧ Mem.wf (Mem.write [(3, 9), (5, 7)] 5 0) = true ∧
    ∀ i : Nat, i < 1024 → Mem.read [(3, 9)] i = Mem.read (Mem.write [(3, 9), (5, 7)] 5 0) i :=
  ⟨rfl, rfl, fun _ _ => rfl⟩

theorem witness_step_runs :
    (withWords [0x20080005]).status = .running ∧
    (withWords [0x20080005]).words[(withWords [0x20080005]).pc.toNat]? = some 0x20080005 ∧
    decode 0x20080005 = .instr (.addi 0 8 5) ∧
    (nextState (exec (.addi 0 8 5) (withWords [0x20080005]))).isSome = true := by decide

theorem witness_step_decode_fault :
    (withWords [0]).status = .running ∧ (withWords [0]).words[(withWords [0]).pc.toNat]? = some 0 ∧
    decode 0 = .error (.unknownFunction 0 0) := by decide

theorem witness_stopped :
    State.reset.phase = .halted ∧ (State.reset.raise (.unsupportedSyscall 1)).phase = .faulted ∧
    (State.reset.raise (.unsupportedSyscall 1)).status = .faulted (.unsupportedSyscall 1) ∧
    ([0x20080005] : List Word).length ≤ ({ State.reset with pc := 1 } : State).pc.toNat := by decide

theorem witness_faulting_step :
    (withWords [0x08000005]).status = .running ∧
    statusAfter (step (withWords [0x08000005])) = some (.faulted (.notYetImplemented 0x02 5)) := by decide

/-- `execute_one` on a Halted state completes, and faults. -/
theorem witness_execute_one_halted :
    State.reset.phase = .halted ∧ State.reset.status = .running ∧
    regAfter (executeOne State.reset 0x20080005) 8 = some 5 ∧
    statusAfter (executeOne State.reset 0) = some (.faulted (.unknownFunction 0 0)) := by decide

/-- The source register's value shared by two states that differ elsewhere. -/
theorem witness_shared_source : (withRegs [(9, 4)]).x 9 = (withRegs [(9, 4), (8, 6)]).x 9 := by decide

/-- A run that goes on after one turn and stops, Halted or Faulted, after two. -/
theorem witness_run_turns :
    streamAdmitted (withWords [0x20080005, 0x08000005]).words ∧
    (nextState (cycles 1 (withWords [0x20080005, 0x08000005]))).map State.phase = some .ready ∧
    (nextState (cycles 2 (withWords [0x20080005, 0x08000005]))).map State.phase = some .faulted ∧
    (nextState (cycles 2 (withWords [0x20080005, 0x20080005]))).map State.phase = some .halted := by decide

theorem witness_ready_to_ready :
    streamAdmitted (withWords [0x20080005, 0x20080005]).words ∧ (withWords [0x20080005, 0x20080005]).phase = .ready ∧
    (nextState (step (withWords [0x20080005, 0x20080005]))).map State.phase = some .ready := by decide

theorem witness_ready_to_halted :
    streamAdmitted (withWords [0x20080005]).words ∧ (withWords [0x20080005]).phase = .ready ∧
    (nextState (step (withWords [0x20080005]))).map State.phase = some .halted := by decide

theorem witness_ready_to_faulted :
    streamAdmitted (withWords [0x0C000005]).words ∧ (withWords [0x0C000005]).phase = .ready ∧
    (nextState (step (withWords [0x0C000005]))).map State.phase = some .faulted := by decide

/-- The run's invariant holds of a state that prints at its next step. -/
theorem witness_run_invariant :
    RunInvariant (withWords [0x0000000C]) ∧ outAfter (step (withWords [0x0000000C])) = some [0x30, 0x0A] :=
  ⟨⟨by decide, by decide, rfl, .empty, fun r h => absurd (show (withWords [0x0000000C]).x r = 0 by revert r; decide) h⟩,
    by decide⟩

theorem witness_memory_kept :
    ({ State.reset with mem := [(3, 9)] } : State).mem.wf = true ∧
    (nextState (step { State.reset with mem := [(3, 9)] })).isSome = true := by decide

theorem witness_unroll :
    streamAdmitted [0x20080005, 0x08000005] ∧ State.reset.status = .running ∧
    ([0x20080005, 0x08000005] : List Word)[State.reset.pc.toNat]? = some 0x20080005 ∧
    statusAfter (executeOne State.reset 0x20080005) = some .running ∧
    ([0x20080005, 0x08000005] : List Word)[({ State.reset with pc := 1 } : State).pc.toNat]? = some 0x08000005 ∧
    statusAfter (executeOne { State.reset with pc := 1 } 0x08000005) =
      some (.faulted (.notYetImplemented 0x02 5)) := by decide

theorem witness_runs_end :
    (nextState (executeMany State.reset [0x20080005])).map State.phase = some .halted ∧
    (nextState (executeMany State.reset [0x20080005, 0x08000005])).map State.phase = some .faulted ∧
    State.reset.pc.toNat ≤ ([0x20080005] : List Word).length := by decide

theorem witness_cycles :
    streamAdmitted (withWords [0x20080005, 0x08000005]).words ∧
    statusAfter (cycles 1 (withWords [0x20080005, 0x08000005])) = some .running ∧
    statusAfter (cycles 2 (withWords [0x20080005, 0x08000005])) = some (.faulted (.notYetImplemented 0x02 5)) := by decide

theorem witness_all_addi : ([(8, 40000), (9, 3), (8, 40000)] : List (RegNum × Imm16)).length < 2 ^ 32 := by decide

theorem witness_output_grows :
    outAfter (step (withWords [0x0000000C])) = some [0x30, 0x0A] ∧ outAfter (step (withWords [0x20080005])) = some [] := by
  decide

end Sys2Proof.Tests
end

section
/-! PROOFS. The output is appended to and never read (10_state.md R30). One word of any kind answers the same state and
appends the same bytes, whatever output was there before: `AppendsUnread`, proved per effect, then per instruction,
then for `dispatch` and `executeOne`. -/

namespace Sys2Proof.Machine

/-- The state with its output replaced. -/
def State.withOut (s : State) (o : List Byte) : State := { s with out := o }

@[simp] theorem State.withOut_out (s : State) (o : List Byte) : (s.withOut o).out = o := rfl
@[simp] theorem State.withOut_status (s : State) (o : List Byte) : (s.withOut o).status = s.status := rfl
@[simp] theorem State.withOut_x (s : State) (o : List Byte) (r : RegNum) : (s.withOut o).x r = s.x r := rfl

/-- Replacing the output by itself changes nothing. -/
theorem State.withOut_self (s : State) : s.withOut s.out = s := rfl

/-- A fault's entry does not read the output. -/
theorem State.raise_withOut (s : State) (o : List Byte) (f : Fault) :
    (s.withOut o).raise f = (s.raise f).withOut o := rfl

/-- What is emitted follows the output that is there. -/
theorem State.emit_withOut (s : State) (o b : List Byte) : (s.withOut o).emit b = s.withOut (o ++ b) := rfl

/-- A register write does not read the output. -/
theorem State.writeReg_withOut (s : State) (o : List Byte) (c : Config) (i : RegNum) (v : Word) :
    (s.withOut o).writeReg c i v = (s.writeReg c i v).withOut o := by
  unfold State.writeReg
  split <;> rfl

/-- An operation does not read the output of `s`: one next state and one list of bytes answer for every output, which
the operation extends by those bytes. -/
def AppendsUnread (op : State → Host.Outcome State Fault Refusal) (s : State) : Prop :=
  ∃ (t : State) (bytes : List Byte), ∀ o : List Byte, op (s.withOut o) = .next (t.withOut (o ++ bytes))

section
variable {op : State → Host.Outcome State Fault Refusal} {s : State}

/-- An operation that goes on to one state under every output appends nothing. -/
theorem AppendsUnread.of_unchanged (t : State) (h : ∀ o, op (s.withOut o) = .next (t.withOut o)) :
    AppendsUnread op s :=
  ⟨t, [], fun o => by rw [h, List.append_nil]⟩

theorem AppendsUnread.of_writeReg (r : RegNum) (v : Word)
    (h : ∀ o, op (s.withOut o) = .next ((s.withOut o).writeReg params r v)) : AppendsUnread op s :=
  .of_unchanged (s.writeReg params r v) fun o => by rw [h, State.writeReg_withOut]

theorem AppendsUnread.of_raise (f : Fault) (h : ∀ o, op (s.withOut o) = .next ((s.withOut o).raise f)) :
    AppendsUnread op s :=
  .of_unchanged (s.raise f) fun o => by rw [h, State.raise_withOut]

theorem AppendsUnread.of_emit (bytes : List Byte) (h : ∀ o, op (s.withOut o) = .next ((s.withOut o).emit bytes)) :
    AppendsUnread op s :=
  ⟨s, bytes, fun o => by rw [h, State.emit_withOut]⟩

end

/-- `syscall` prints or faults as the registers say, which the output does not reach. -/
theorem exec_syscall_appendsUnread (s : State) : AppendsUnread (exec .syscall) s := by
  by_cases h : s.x params.regV0 = sysPrintInt
  · exact .of_emit (printText (s.x params.regA0)) fun o => by simp [exec_syscall, h]
  · exact .of_raise (.unsupportedSyscall (s.x params.regV0)) fun o => by simp [exec_syscall, h]

/-- No instruction reads the output. -/
theorem exec_appendsUnread (i : Instr) (s : State) : AppendsUnread (exec i) s := by
  cases i with
  | add rs rt rd => exact .of_writeReg rd (s.x rs + s.x rt) fun o => exec_add rs rt rd (s.withOut o)
  | addu rs rt rd => exact .of_writeReg rd (s.x rs + s.x rt) fun o => exec_addu rs rt rd (s.withOut o)
  | sub rs rt rd => exact .of_writeReg rd (s.x rs - s.x rt) fun o => exec_sub rs rt rd (s.withOut o)
  | subu rs rt rd => exact .of_writeReg rd (s.x rs - s.x rt) fun o => exec_subu rs rt rd (s.withOut o)
  | syscall => exact exec_syscall_appendsUnread s
  | addi rs rt imm => exact .of_writeReg rt (s.x rs + imm.setWidth 32) fun o => exec_addi rs rt imm (s.withOut o)
  | addiu rs rt imm => exact .of_writeReg rt (s.x rs + imm.setWidth 32) fun o => exec_addiu rs rt imm (s.withOut o)
  | j address => exact .of_raise _ fun o => exec_j address (s.withOut o)
  | jal address => exact .of_raise _ fun o => exec_jal address (s.withOut o)

/-- A word that decodes runs its instruction. -/
theorem dispatch_of_instr {w : Word} {i : Instr} (h : decode w = .instr i) (s : State) :
    dispatch s w = exec i s := by
  simp [dispatch, h]

/-- A word that does not decode raises its decode fault. -/
theorem dispatch_of_error {w : Word} {e : DecodeError} (h : decode w = .error e) (s : State) :
    dispatch s w = .next (s.raise (decodeFault e)) := by
  simp [dispatch, h]

theorem dispatch_appendsUnread (w : Word) (s : State) : AppendsUnread (dispatch · w) s := by
  cases h : decode w with
  | instr i =>
    obtain ⟨t, bytes, ht⟩ := exec_appendsUnread i s
    exact ⟨t, bytes, fun o => (dispatch_of_instr h _).trans (ht o)⟩
  | error e => exact .of_raise (decodeFault e) fun o => dispatch_of_error h (s.withOut o)

theorem executeOne_appendsUnread (w : Word) (s : State) : AppendsUnread (executeOne · w) s := by
  cases h : s.status with
  | running =>
    obtain ⟨t, bytes, ht⟩ := dispatch_appendsUnread w s
    exact ⟨t, bytes, fun o => (executeOne_running w ((s.withOut_status o).trans h)).trans (ht o)⟩
  | faulted f => exact .of_unchanged s fun o => executeOne_faulted w ((s.withOut_status o).trans h)

/-- Settles O27: reset emits nothing, and `executeOne_appendsUnread`, read at the state's own output and at any
other. -/
theorem outputIsAppendedAndNeverRead : Obligations.OutputIsAppendedAndNeverRead := by
  refine ⟨rfl, fun s w => ?_⟩
  obtain ⟨t, bytes, ht⟩ := executeOne_appendsUnread w s
  refine ⟨t.withOut (s.out ++ bytes), bytes, ?_, t.withOut_out _, fun o => ?_⟩
  · rw [← ht s.out, s.withOut_self]
  · exact ht o

end Sys2Proof.Machine
end

section
/-! PROOFS. The immediate and the jump format (30_encoding.md R72, R73): how adjacent fields make up a word, what a word
with one of the four primary opcodes decodes to under any consistent parameters, and the roles of `rs` and `rt`. -/

namespace Sys2Proof

open Machine

/-! Layout: a field is the two adjacent fields it is cut into, the higher one first. -/

/-- A field of `m + n` bits is its upper `n` bits placed above its lower `m` bits. -/
theorem extract_toNat_split (w : Word) (lo m n : Nat) :
    (w.extractLsb' lo (m + n)).toNat =
      (w.extractLsb' (lo + m) n).toNat * 2 ^ m + (w.extractLsb' lo m).toNat := by
  simp only [BitVec.extractLsb'_toNat, Nat.shiftRight_eq_div_pow, Nat.pow_add, Nat.mod_mul, Nat.div_div_eq_div_mul]
  rw [Nat.mul_comm, Nat.add_comm]

/-- The jump format's layout (R73). -/
theorem toNat_eq_opcode_address (w : Word) :
    w.toNat = (opcodeField w).toNat * 2 ^ 26 + (addressField w).toNat :=
  calc w.toNat = (w.extractLsb' 0 (26 + 6)).toNat := by rw [BitVec.extractLsb'_eq_self]
    _ = _ := extract_toNat_split w 0 26 6

/-- The lower 26 bits of a word as the immediate format reads them. -/
theorem addressField_toNat (w : Word) :
    (addressField w).toNat = (rsField w).toNat * 2 ^ 21 + (rtField w).toNat * 2 ^ 16 + (immField w).toNat :=
  calc (addressField w).toNat = (rsField w).toNat * 2 ^ 21 + (w.extractLsb' 0 21).toNat :=
        extract_toNat_split w 0 21 5
    _ = (rsField w).toNat * 2 ^ 21 + ((rtField w).toNat * 2 ^ 16 + (immField w).toNat) :=
        congrArg _ (extract_toNat_split w 0 16 5)
    _ = _ := (Nat.add_assoc ..).symm

/-- The immediate format's layout (R72). -/
theorem toNat_eq_opcode_rs_rt_imm (w : Word) :
    w.toNat = (opcodeField w).toNat * 2 ^ 26 + (rsField w).toNat * 2 ^ 21 + (rtField w).toNat * 2 ^ 16 +
      (immField w).toNat := by
  rw [toNat_eq_opcode_address, addressField_toNat]
  omega

/-! Decoding by primary opcode: the tests before an opcode's own fail, because consistent opcodes are distinct. -/

/-- Consistent parameters name four primary opcodes other than 0. -/
theorem Config.consistent_opcodes_ne_opcR {c : Config} (hc : c.consistent = true) :
    c.opcAddi ≠ opcR ∧ c.opcAddiu ≠ opcR ∧ c.opcJ ≠ opcR ∧ c.opcJal ≠ opcR := by
  obtain ⟨hnonzero, -, -⟩ := c.consistent_iff.mp hc
  simpa [opcodesNonzero] using hnonzero

/-- What the tests of R81 need, in their order: each opcode differs from those tested before it. -/
theorem Config.consistent_opcodes_ne_earlier {c : Config} (hc : c.consistent = true) :
    c.opcAddiu ≠ c.opcAddi ∧ (c.opcJ ≠ c.opcAddi ∧ c.opcJ ≠ c.opcAddiu) ∧
      (c.opcJal ≠ c.opcAddi ∧ c.opcJal ≠ c.opcAddiu ∧ c.opcJal ≠ c.opcJ) := by
  obtain ⟨-, hdistinct, -⟩ := c.consistent_iff.mp hc
  have hnodup : [c.opcAddi, c.opcAddiu, c.opcJ, c.opcJal].Nodup := of_decide_eq_true hdistinct
  simp only [List.nodup_cons, List.mem_cons, List.not_mem_nil, or_false, not_or] at hnodup
  obtain ⟨⟨haddi_addiu, haddi_j, haddi_jal⟩, ⟨haddiu_j, haddiu_jal⟩, hj_jal, -⟩ := hnodup
  exact ⟨Ne.symm haddi_addiu, ⟨Ne.symm haddi_j, Ne.symm haddiu_j⟩,
    Ne.symm haddi_jal, Ne.symm haddiu_jal, Ne.symm hj_jal⟩

section
variable {c : Config} {w : Word} (hc : c.consistent = true)
include hc

theorem decodeWith_of_opcAddi (h : opcodeField w = c.opcAddi) :
    decodeWith c w = .instr (.addi (rsField w) (rtField w) (immField w)) := by
  obtain ⟨hR, -⟩ := Config.consistent_opcodes_ne_opcR hc
  simp [decodeWith, h, hR]

theorem decodeWith_of_opcAddiu (h : opcodeField w = c.opcAddiu) :
    decodeWith c w = .instr (.addiu (rsField w) (rtField w) (immField w)) := by
  obtain ⟨-, hR, -⟩ := Config.consistent_opcodes_ne_opcR hc
  obtain ⟨haddi, -⟩ := Config.consistent_opcodes_ne_earlier hc
  simp [decodeWith, h, hR, haddi]

theorem decodeWith_of_opcJ (h : opcodeField w = c.opcJ) : decodeWith c w = .instr (.j (addressField w)) := by
  obtain ⟨-, -, hR, -⟩ := Config.consistent_opcodes_ne_opcR hc
  obtain ⟨-, ⟨haddi, haddiu⟩, -⟩ := Config.consistent_opcodes_ne_earlier hc
  simp [decodeWith, h, hR, haddi, haddiu]

theorem decodeWith_of_opcJal (h : opcodeField w = c.opcJal) : decodeWith c w = .instr (.jal (addressField w)) := by
  obtain ⟨-, -, -, hR⟩ := Config.consistent_opcodes_ne_opcR hc
  obtain ⟨-, -, haddi, haddiu, hj⟩ := Config.consistent_opcodes_ne_earlier hc
  simp [decodeWith, h, hR, haddi, haddiu, hj]

end

/-! The roles of the two registers. -/

/-- An instruction that writes `rt` with a sum of `rs` and a constant: states that agree on `rs` get one value in `rt`,
and no other register changes. -/
theorem exec_sum_source_destination {i : Instr} {rs rt : RegNum} {k : Word}
    (hexec : ∀ s, exec i s = .next (s.writeReg params rt (s.x rs + k))) {s v : State} (hrs : s.x rs = v.x rs) :
    ∃ t u : State, exec i s = .next t ∧ exec i v = .next u ∧ t.x rt = u.x rt ∧
      ∀ r : RegNum, r ≠ rt → t.x r = s.x r := by
  refine ⟨_, _, hexec s, hexec v, ?_, fun r hr => ?_⟩
  · simp [State.writeReg_params_x, hrs]
  · simp [State.writeReg_params_x, hr]

/-- Settles O9: the two layouts, the decoding of each opcode at the spec's consistent parameters, and the roles of `rs`
and `rt` in the sum that `addi` and `addiu` write. -/
theorem immediateAndJumpFormatsHaveTheirFields : Obligations.ImmediateAndJumpFormatsHaveTheirFields := by
  constructor
  · intro w
    exact ⟨toNat_eq_opcode_rs_rt_imm w, toNat_eq_opcode_address w, decodeWith_of_opcAddi params_consistent,
      decodeWith_of_opcAddiu params_consistent, decodeWith_of_opcJ params_consistent,
      decodeWith_of_opcJal params_consistent⟩
  · intro rs rt imm s v hrs
    exact ⟨exec_sum_source_destination (exec_addi rs rt imm) hrs,
      exec_sum_source_destination (exec_addiu rs rt imm) hrs⟩

end Sys2Proof
end

section
/-! PROOFS. A run never goes back, skips or repeats (70_reset_and_hazards.md R229). First the decoder read backwards:
the codes that select each instruction and the two decode errors. Then what raises a fault, one turn of the loop from a
Ready state, and any number of turns. -/

namespace Sys2Proof

open Machine

/-! The decoder read backwards (30_encoding.md R81, R83, R84). -/

/-- The codes of a word that select an instruction, one row of opcode_table.json each (R80). -/
def Instr.SelectedBy (c : Config) (w : Word) : Instr → Prop
  | .add _ _ _ => opcodeField w = opcR ∧ functField w = c.fnAdd
  | .addu _ _ _ => opcodeField w = opcR ∧ functField w = c.fnAddu
  | .sub _ _ _ => opcodeField w = opcR ∧ functField w = c.fnSub
  | .subu _ _ _ => opcodeField w = opcR ∧ functField w = c.fnSubu
  | .syscall => opcodeField w = opcR ∧ functField w = c.fnSyscall
  | .addi _ _ _ => opcodeField w = c.opcAddi
  | .addiu _ _ _ => opcodeField w = c.opcAddiu
  | .j _ => opcodeField w = c.opcJ
  | .jal _ => opcodeField w = c.opcJal

/-- A word decodes only to an instruction that its codes select. -/
theorem selectedBy_of_decodeWith {c : Config} {w : Word} {i : Instr} (h : decodeWith c w = .instr i) :
    i.SelectedBy c w := by
  unfold decodeWith at h
  split_ifs at h with hR
  case pos =>
    unfold decodeRegister at h
    split_ifs at h <;> cases h <;> exact ⟨hR, ‹_›⟩
  all_goals cases h; assumption

/-- A word that decodes to no instruction has an unknown opcode, or opcode 0 and an unknown function code. -/
theorem unknown_code_of_decode_error {w : Word} {e : DecodeError} (h : decode w = .error e) :
    opcodeField w ∉ knownOpcodes ∨ (opcodeField w = opcR ∧ functField w ∉ knownFuncts) := by
  unfold decode decodeWith at h
  split_ifs at h with hR
  · unfold decodeRegister at h
    split_ifs at h
    exact .inr ⟨hR, by simp [knownFuncts, *]⟩
  · exact .inl (by simp [knownOpcodes, *])

end Sys2Proof

namespace Sys2Proof.Machine

/-! What raises a fault (60_exceptions.md R190). -/

/-- An instruction that only writes a register leaves the status alone. -/
theorem status_eq_of_exec_writeReg {i : Instr} {s t : State} {r : RegNum} {v : Word}
    (hexec : exec i s = .next (s.writeReg params r v)) (h : exec i s = .next t) : t.status = s.status := by
  cases hexec.symm.trans h
  exact s.writeReg_status params r v

/-- The status changes only by `syscall` with a number other than 0 and by the two jumps. -/
theorem hasFaultCause_of_exec {s t : State} {w : Word} {i : Instr} (hi : i.SelectedBy params w)
    (h : exec i s = .next t) (hstatus : t.status ≠ s.status) : HasFaultCause s w := by
  cases i with
  | add rs rt rd => exact absurd (status_eq_of_exec_writeReg (exec_add rs rt rd s) h) hstatus
  | addu rs rt rd => exact absurd (status_eq_of_exec_writeReg (exec_addu rs rt rd s) h) hstatus
  | sub rs rt rd => exact absurd (status_eq_of_exec_writeReg (exec_sub rs rt rd s) h) hstatus
  | subu rs rt rd => exact absurd (status_eq_of_exec_writeReg (exec_subu rs rt rd s) h) hstatus
  | addi rs rt imm => exact absurd (status_eq_of_exec_writeReg (exec_addi rs rt imm s) h) hstatus
  | addiu rs rt imm => exact absurd (status_eq_of_exec_writeReg (exec_addiu rs rt imm s) h) hstatus
  | syscall =>
    obtain ⟨hopcode, hfunct⟩ := hi
    refine .inr (.inr (.inl ⟨hopcode, hfunct, fun hv0 => hstatus ?_⟩))
    rw [exec_syscall, if_pos hv0] at h
    cases h
    exact s.emit_status _
  | j address => exact .inr (.inr (.inr (.inl hi)))
  | jal address => exact .inr (.inr (.inr (.inr hi)))

/-- A word that changes the status has one of the four causes of a fault. -/
theorem hasFaultCause_of_dispatch {s t : State} {w : Word} (h : dispatch s w = .next t)
    (hstatus : t.status ≠ s.status) : HasFaultCause s w := by
  cases hw : decode w with
  | instr i => exact hasFaultCause_of_exec (selectedBy_of_decodeWith hw) (dispatch_of_instr hw s ▸ h) hstatus
  | error e => exact (unknown_code_of_decode_error hw).imp_right .inl

/-! Phases, and one turn of the loop (45_step_and_run.md R173). -/

theorem State.phase_of_running {s : State} (h : s.status = .running) :
    s.phase = if s.pc.toNat < s.words.length then .ready else .halted := by
  simp [State.phase, h]

theorem State.phase_of_faulted {s : State} {f : Fault} (h : s.status = .faulted f) : s.phase = .faulted := by
  simp [State.phase, h]

theorem State.phase_eq_ready_iff (s : State) :
    s.phase = .ready ↔ s.status = .running ∧ s.pc.toNat < s.words.length := by
  cases h : s.status with
  | running => simp [State.phase_of_running h]
  | faulted f => simp [State.phase_of_faulted h]

theorem advance_of_running {s : State} (h : s.status = .running) : advance s = s.advancePc := by
  simp [advance, h]

theorem advance_of_faulted {s : State} {f : Fault} (h : s.status = .faulted f) : advance s = s := by
  simp [advance, h]

@[simp] theorem advance_words (s : State) : (advance s).words = s.words := by
  cases h : s.status with
  | running => rw [advance_of_running h, State.advancePc_words]
  | faulted f => rw [advance_of_faulted h]

/-- No effect moves the pc or changes the stream. -/
theorem Effect.pc_words {s t : State} (h : Effect s t) : t.pc = s.pc ∧ t.words = s.words := by
  cases h <;> simp

theorem step_words {s t : State} (h : step s = .next t) : t.words = s.words := by
  obtain ⟨rfl, -⟩ | ⟨w, u, -, -, -, heffect, rfl⟩ := step_cases h
  · rfl
  · rw [advance_words, heffect.pc_words.2]

/-- A Halted or a Faulted run stays where it is. -/
theorem step_of_stopped {s : State} (h : s.phase ≠ .ready) : step s = .next s := by
  cases hs : s.status with
  | running =>
    refine step_halted hs (s.fetch_eq_none_iff.mpr (Nat.le_of_not_lt fun hpc => h ?_))
    exact s.phase_eq_ready_iff.mpr ⟨hs, hpc⟩
  | faulted f => exact step_faulted hs

/-- Where a turn from `s` can lead: to Ready one index further, to Halted at the stream's end, or to Faulted by a word
with a fault's cause. -/
def LeadsTo (s t : State) : Prop :=
  (t.phase = .ready ∧ t.pc.toNat = s.pc.toNat + 1) ∨
  (t.phase = .halted ∧ t.pc.toNat = s.words.length) ∨
  (t.phase = .faulted ∧ ∃ w : Word, s.words[s.pc.toNat]? = some w ∧ HasFaultCause s w)

/-- A completed word below the end of an admitted stream leads to the next index, or to the end. -/
theorem leadsTo_advancePc {s t : State} (hwords : streamAdmitted s.words) (hlt : s.pc.toNat < s.words.length)
    (ht : t.status = .running) (hpc : t.pc = s.pc) (hkept : t.words = s.words) : LeadsTo s t.advancePc := by
  have hnext : t.advancePc.pc.toNat = s.pc.toNat + 1 := by
    rw [← hpc]
    exact t.advancePc_pc_toNat (by rw [hpc]; exact lt_of_le_of_lt hlt hwords)
  have hphase := State.phase_of_running (t.advancePc_status.trans ht)
  rw [hnext, State.advancePc_words, hkept] at hphase
  by_cases hend : s.pc.toNat + 1 < s.words.length
  · exact .inl ⟨by rw [hphase, if_pos hend], hnext⟩
  · exact .inr (.inl ⟨by rw [hphase, if_neg hend], by omega⟩)

/-- Every transition of a Ready run over an admitted stream. -/
theorem leadsTo_of_step {s t : State} (hwords : streamAdmitted s.words) (hready : s.phase = .ready)
    (h : step s = .next t) : LeadsTo s t := by
  obtain ⟨hrunning, hlt⟩ := s.phase_eq_ready_iff.mp hready
  obtain ⟨-, hnone | ⟨f, hfaulted⟩⟩ | ⟨w, u, -, hfetch, hdispatch, heffect, rfl⟩ := step_cases h
  · exact absurd (s.fetch_eq_none_iff.mp hnone) (Nat.not_le_of_lt hlt)
  · cases hrunning.symm.trans hfaulted
  · obtain ⟨hpc, hkept⟩ := heffect.pc_words
    cases hu : u.status with
    | running =>
      rw [advance_of_running hu]
      exact leadsTo_advancePc hwords hlt hu hpc hkept
    | faulted f =>
      rw [advance_of_faulted hu]
      have hstatus : u.status ≠ s.status := by simp [hu, hrunning]
      exact .inr (.inr ⟨State.phase_of_faulted hu, w, hfetch, hasFaultCause_of_dispatch hdispatch hstatus⟩)

/-- A turn that leaves the run Ready went one index further. -/
theorem LeadsTo.pc_of_ready {s t : State} (h : LeadsTo s t) (ht : t.phase = .ready) :
    t.pc.toNat = s.pc.toNat + 1 := by
  obtain ⟨-, hpc⟩ | ⟨hhalted, -⟩ | ⟨hfaulted, -⟩ := h
  · exact hpc
  · cases ht.symm.trans hhalted
  · cases ht.symm.trans hfaulted

/-! Any number of turns. -/

/-- The first of `k + 1` turns is a step, the others follow it. -/
theorem cycles_succ_of_step {s t : State} (h : step s = .next t) (k : Nat) : cycles (k + 1) s = cycles k t := by
  have hcycle : cycle s = .next t := h
  simp [cycles, hcycle]

/-- Turns that answer a state begin with a step that answers one. -/
theorem step_of_cycles_succ {s u : State} {k : Nat} (h : cycles (k + 1) s = .next u) :
    ∃ t, step s = .next t ∧ cycles k t = .next u := by
  cases hs : step s with
  | next t => exact ⟨t, rfl, cycles_succ_of_step hs k ▸ h⟩
  | fault f | refused r =>
    have hcycle : cycle s = _ := hs
    simp [cycles, hcycle] at h

theorem cycles_of_stopped {s : State} (h : s.phase ≠ .ready) (k : Nat) : cycles k s = .next s := by
  induction k with
  | zero => rfl
  | succ k ih => rw [cycles_succ_of_step (step_of_stopped h), ih]

/-- A run that is Ready after some turns was Ready before them. -/
theorem ready_of_cycles_ready {s t : State} {k : Nat} (h : cycles k s = .next t) (ht : t.phase = .ready) :
    s.phase = .ready := by
  by_contra hs
  cases (cycles_of_stopped hs k).symm.trans h
  exact hs ht

theorem cycles_words {s t : State} {k : Nat} (h : cycles k s = .next t) : t.words = s.words := by
  induction k generalizing s with
  | zero => cases h; rfl
  | succ k ih =>
    obtain ⟨u, hstep, hrest⟩ := step_of_cycles_succ h
    rw [ih hrest, step_words hstep]

/-- A run still Ready after `k` turns has gone `k` indices further. -/
theorem cycles_pc_of_ready {s t : State} {k : Nat} (hwords : streamAdmitted s.words) (h : cycles k s = .next t)
    (ht : t.phase = .ready) : t.pc.toNat = s.pc.toNat + k := by
  induction k generalizing s with
  | zero => cases h; rfl
  | succ k ih =>
    obtain ⟨u, hstep, hrest⟩ := step_of_cycles_succ h
    have hs := ready_of_cycles_ready h ht
    have hu := ready_of_cycles_ready hrest ht
    have hfirst := (leadsTo_of_step hwords hs hstep).pc_of_ready hu
    have hothers := ih (step_words hstep ▸ hwords) hrest
    omega

/-- Settles O39: stopped runs stay as they are, a Ready run has gone one index further each turn, and `leadsTo_of_step`
lists the transitions from the state reached, whose stream is still the admitted one. -/
theorem aRunNeverGoesBackSkipsOrRepeats : Obligations.ARunNeverGoesBackSkipsOrRepeats := by
  intro s t j hwords h
  refine ⟨fun k u hstopped hu => ?_, cycles_pc_of_ready hwords h, fun u hready hstep => ?_⟩
  · cases (cycles_of_stopped hstopped k).symm.trans hu
    rfl
  · exact leadsTo_of_step (cycles_words h ▸ hwords) hready hstep

end Sys2Proof.Machine
end

section
/-! PROOFS. Decode and encode agree (30_encoding.md sections 2 to 4): what a word with one of the five function codes
decodes to under any consistent parameters, the two directions of the round trip, the opcode table, and the three
outcomes of decoding. -/

namespace Sys2Proof

open Machine

/-! Decoding by function code (R81): the tests before a code's own fail, because consistent codes are distinct. -/

/-- What the tests of R81 need, in their order: each function code differs from those tested before it. -/
theorem Config.consistent_functs_ne_earlier {c : Config} (hc : c.consistent = true) :
    c.fnAddu ≠ c.fnAdd ∧ (c.fnSub ≠ c.fnAdd ∧ c.fnSub ≠ c.fnAddu) ∧
      (c.fnSubu ≠ c.fnAdd ∧ c.fnSubu ≠ c.fnAddu ∧ c.fnSubu ≠ c.fnSub) ∧
      (c.fnSyscall ≠ c.fnAdd ∧ c.fnSyscall ≠ c.fnAddu ∧ c.fnSyscall ≠ c.fnSub ∧ c.fnSyscall ≠ c.fnSubu) := by
  obtain ⟨-, -, hdistinct⟩ := c.consistent_iff.mp hc
  have hnodup : [c.fnAdd, c.fnAddu, c.fnSub, c.fnSubu, c.fnSyscall].Nodup := of_decide_eq_true hdistinct
  simp only [List.nodup_cons, List.mem_cons, List.not_mem_nil, or_false, not_or] at hnodup
  obtain ⟨⟨hadd_addu, hadd_sub, hadd_subu, hadd_sys⟩, ⟨haddu_sub, haddu_subu, haddu_sys⟩, ⟨hsub_subu, hsub_sys⟩,
    hsubu_sys, -⟩ := hnodup
  exact ⟨Ne.symm hadd_addu, ⟨Ne.symm hadd_sub, Ne.symm haddu_sub⟩,
    ⟨Ne.symm hadd_subu, Ne.symm haddu_subu, Ne.symm hsub_subu⟩,
    Ne.symm hadd_sys, Ne.symm haddu_sys, Ne.symm hsub_sys, Ne.symm hsubu_sys⟩

theorem decodeWith_of_opcR (c : Config) {w : Word} (h : opcodeField w = opcR) :
    decodeWith c w = decodeRegister c w := by
  simp [decodeWith, h]

section
variable {c : Config} {w : Word} (hc : c.consistent = true) (hR : opcodeField w = opcR)
include hR

theorem decodeWith_of_fnAdd (h : functField w = c.fnAdd) :
    decodeWith c w = .instr (.add (rsField w) (rtField w) (rdField w)) := by
  simp [decodeWith_of_opcR c hR, decodeRegister, h]

include hc

theorem decodeWith_of_fnAddu (h : functField w = c.fnAddu) :
    decodeWith c w = .instr (.addu (rsField w) (rtField w) (rdField w)) := by
  obtain ⟨hadd, -⟩ := Config.consistent_functs_ne_earlier hc
  simp [decodeWith_of_opcR c hR, decodeRegister, h, hadd]

theorem decodeWith_of_fnSub (h : functField w = c.fnSub) :
    decodeWith c w = .instr (.sub (rsField w) (rtField w) (rdField w)) := by
  obtain ⟨-, ⟨hadd, haddu⟩, -⟩ := Config.consistent_functs_ne_earlier hc
  simp [decodeWith_of_opcR c hR, decodeRegister, h, hadd, haddu]

theorem decodeWith_of_fnSubu (h : functField w = c.fnSubu) :
    decodeWith c w = .instr (.subu (rsField w) (rtField w) (rdField w)) := by
  obtain ⟨-, -, ⟨hadd, haddu, hsub⟩, -⟩ := Config.consistent_functs_ne_earlier hc
  simp [decodeWith_of_opcR c hR, decodeRegister, h, hadd, haddu, hsub]

theorem decodeWith_of_fnSyscall (h : functField w = c.fnSyscall) : decodeWith c w = .instr .syscall := by
  obtain ⟨-, -, -, hadd, haddu, hsub, hsubu⟩ := Config.consistent_functs_ne_earlier hc
  simp [decodeWith_of_opcR c hR, decodeRegister, h, hadd, haddu, hsub, hsubu]

end

/-- Settles O3: the canonical word has the instruction's code, so its test is the one that succeeds, and the operand
fields read back what was packed. -/
theorem decodeInvertsEncodeForConsistentParameters : Obligations.DecodeInvertsEncodeForConsistentParameters := by
  intro c hc i
  cases i with
  | add rs rt rd =>
    have h := decodeWith_of_fnAdd (opcodeField_packR rs rt rd c.fnAdd) (functField_packR ..)
    rwa [rsField_packR, rtField_packR, rdField_packR] at h
  | addu rs rt rd =>
    have h := decodeWith_of_fnAddu hc (opcodeField_packR rs rt rd c.fnAddu) (functField_packR ..)
    rwa [rsField_packR, rtField_packR, rdField_packR] at h
  | sub rs rt rd =>
    have h := decodeWith_of_fnSub hc (opcodeField_packR rs rt rd c.fnSub) (functField_packR ..)
    rwa [rsField_packR, rtField_packR, rdField_packR] at h
  | subu rs rt rd =>
    have h := decodeWith_of_fnSubu hc (opcodeField_packR rs rt rd c.fnSubu) (functField_packR ..)
    rwa [rsField_packR, rtField_packR, rdField_packR] at h
  | syscall => exact decodeWith_of_fnSyscall hc (opcodeField_packR ..) (functField_packR ..)
  | addi rs rt imm =>
    have h := decodeWith_of_opcAddi hc (opcodeField_packI rs rt c.opcAddi imm)
    rwa [rsField_packI, rtField_packI, immField_packI] at h
  | addiu rs rt imm =>
    have h := decodeWith_of_opcAddiu hc (opcodeField_packI rs rt c.opcAddiu imm)
    rwa [rsField_packI, rtField_packI, immField_packI] at h
  | j address =>
    have h := decodeWith_of_opcJ hc (opcodeField_packJ c.opcJ address)
    rwa [addressField_packJ] at h
  | jal address =>
    have h := decodeWith_of_opcJal hc (opcodeField_packJ c.opcJal address)
    rwa [addressField_packJ] at h

/-- The Decoder reads an instruction back from its canonical word (R94). -/
theorem decode_encode (i : Instr) : decode (encode i) = .instr i :=
  decodeInvertsEncodeForConsistentParameters params params_consistent i

/-! The value of a packed word (R71 to R73): a word is determined by its fields, and a packed word's are known. -/

/-- The register format's layout (R71). -/
theorem toNat_eq_register_fields (w : Word) :
    w.toNat = (opcodeField w).toNat * 2 ^ 26 + (rsField w).toNat * 2 ^ 21 + (rtField w).toNat * 2 ^ 16 +
      (rdField w).toNat * 2 ^ 11 + (shamtField w).toNat * 2 ^ 6 + (functField w).toNat := by
  have himm : (immField w).toNat = (rdField w).toNat * 2 ^ 11 + (w.extractLsb' 0 11).toNat :=
    extract_toNat_split w 0 11 5
  have hlow : (w.extractLsb' 0 11).toNat = (shamtField w).toNat * 2 ^ 6 + (functField w).toNat :=
    extract_toNat_split w 0 6 5
  rw [toNat_eq_opcode_rs_rt_imm, himm, hlow]
  omega

theorem packR_toNat (rs rt rd : RegNum) (funct : Code6) :
    (packR rs rt rd funct).toNat =
      rs.toNat * 2 ^ 21 + rt.toNat * 2 ^ 16 + rd.toNat * 2 ^ 11 + funct.toNat := by
  rw [toNat_eq_register_fields, opcodeField_packR, rsField_packR, rtField_packR, rdField_packR, shamtField_packR,
    functField_packR]
  simp [opcR]

theorem packI_toNat (opcode : Code6) (rs rt : RegNum) (imm : Imm16) :
    (packI opcode rs rt imm).toNat =
      opcode.toNat * 2 ^ 26 + rs.toNat * 2 ^ 21 + rt.toNat * 2 ^ 16 + imm.toNat := by
  rw [toNat_eq_opcode_rs_rt_imm, opcodeField_packI, rsField_packI, rtField_packI, immField_packI]

theorem packJ_toNat (opcode : Code6) (address : Addr26) :
    (packJ opcode address).toNat = opcode.toNat * 2 ^ 26 + address.toNat := by
  rw [toNat_eq_opcode_address, opcodeField_packJ, addressField_packJ]

/-- Settles O1: the value of a packed word, at arguments reduced to their fields' widths. -/
theorem encodersPlaceTruncatedArguments : Obligations.EncodersPlaceTruncatedArguments := by
  refine ⟨fun rs rt rd funct => ?_, fun opcode rs rt imm => ?_, fun opcode address => ?_⟩
  · simp only [encodeR, packR_toNat, BitVec.toNat_ofNat]
  · simp only [encodeI, packI_toNat, BitVec.toNat_ofNat]
  · simp only [encodeJ, packJ_toNat, BitVec.toNat_ofNat]

/-! Round trips. -/

@[simp] theorem encodeR_toNat_fields (rs rt rd : RegNum) (funct : Code6) :
    encodeR rs.toNat rt.toNat rd.toNat funct.toNat = packR rs rt rd funct := by
  simp [encodeR]

@[simp] theorem encodeI_toNat_fields (opcode : Code6) (rs rt : RegNum) (imm : Imm16) :
    encodeI opcode.toNat rs.toNat rt.toNat imm.toNat = packI opcode rs rt imm := by
  simp [encodeI]

@[simp] theorem encodeJ_toNat_fields (opcode : Code6) (address : Addr26) :
    encodeJ opcode.toNat address.toNat = packJ opcode address := by
  simp [encodeJ]

theorem packI_fields (w : Word) : packI (opcodeField w) (rsField w) (rtField w) (immField w) = w :=
  BitVec.eq_of_toNat_eq ((packI_toNat ..).trans (toNat_eq_opcode_rs_rt_imm w).symm)

theorem packJ_fields (w : Word) : packJ (opcodeField w) (addressField w) = w :=
  BitVec.eq_of_toNat_eq ((packJ_toNat ..).trans (toNat_eq_opcode_address w).symm)

/-- A word is the register format's packing of its fields exactly when what that format sets to 0 is 0. -/
theorem packR_fields_iff (w : Word) :
    packR (rsField w) (rtField w) (rdField w) (functField w) = w ↔ opcodeField w = 0 ∧ shamtField w = 0 := by
  constructor
  · intro h
    rw [← h]
    exact ⟨opcodeField_packR .., shamtField_packR ..⟩
  · rintro ⟨hopcode, hshamt⟩
    apply BitVec.eq_of_toNat_eq
    rw [packR_toNat, toNat_eq_register_fields w, hopcode, hshamt]
    simp

/-- Settles O2: the fields of the packed words, and the words of their fields. -/
theorem fieldsRoundTrip : Obligations.FieldsRoundTrip := by
  refine ⟨fun rs rt rd funct => ⟨packR rs rt rd funct, ?_⟩, fun opcode rs rt imm => ⟨packI opcode rs rt imm, ?_⟩,
    fun opcode address => ⟨packJ opcode address, ?_⟩,
    fun w => ⟨packI_fields w, packJ_fields w, packR_fields_iff w⟩⟩
  · exact ⟨(encodeR_toNat_fields ..).symm, opcodeField_packR .., rsField_packR .., rtField_packR .., rdField_packR ..,
      shamtField_packR .., functField_packR ..⟩
  · exact ⟨(encodeI_toNat_fields ..).symm, opcodeField_packI .., rsField_packI .., rtField_packI ..,
      immField_packI ..⟩
  · exact ⟨(encodeJ_toNat_fields ..).symm, opcodeField_packJ .., addressField_packJ ..⟩

/-! Words under a mask: a field of the masked word is the field of the word, masked by the mask's own field. -/

theorem opcodeField_and (w m : Word) : opcodeField (w &&& m) = opcodeField w &&& opcodeField m :=
  BitVec.extractLsb'_and ..
theorem rsField_and (w m : Word) : rsField (w &&& m) = rsField w &&& rsField m := BitVec.extractLsb'_and ..
theorem rtField_and (w m : Word) : rtField (w &&& m) = rtField w &&& rtField m := BitVec.extractLsb'_and ..
theorem rdField_and (w m : Word) : rdField (w &&& m) = rdField w &&& rdField m := BitVec.extractLsb'_and ..
theorem shamtField_and (w m : Word) : shamtField (w &&& m) = shamtField w &&& shamtField m :=
  BitVec.extractLsb'_and ..
theorem functField_and (w m : Word) : functField (w &&& m) = functField w &&& functField m :=
  BitVec.extractLsb'_and ..

/-- The fields that the mask of the register format keeps: all but shamt (R82). -/
theorem fields_and_registerMask (w : Word) :
    opcodeField (w &&& 0xFFFFF83F) = opcodeField w ∧ rsField (w &&& 0xFFFFF83F) = rsField w ∧
    rtField (w &&& 0xFFFFF83F) = rtField w ∧ rdField (w &&& 0xFFFFF83F) = rdField w ∧
    shamtField (w &&& 0xFFFFF83F) = 0 ∧ functField (w &&& 0xFFFFF83F) = functField w := by
  rw [opcodeField_and, rsField_and, rtField_and, rdField_and, shamtField_and, functField_and]
  exact ⟨BitVec.and_allOnes, BitVec.and_allOnes, BitVec.and_allOnes, BitVec.and_allOnes, BitVec.and_zero,
    BitVec.and_allOnes⟩

/-- The fields that the mask of a function row keeps: the two codes (R80). -/
theorem fields_and_functMask (w : Word) :
    opcodeField (w &&& 0xFC00003F) = opcodeField w ∧ rsField (w &&& 0xFC00003F) = 0 ∧
    rtField (w &&& 0xFC00003F) = 0 ∧ rdField (w &&& 0xFC00003F) = 0 ∧
    shamtField (w &&& 0xFC00003F) = 0 ∧ functField (w &&& 0xFC00003F) = functField w := by
  rw [opcodeField_and, rsField_and, rtField_and, rdField_and, shamtField_and, functField_and]
  exact ⟨BitVec.and_allOnes, BitVec.and_zero, BitVec.and_zero, BitVec.and_zero, BitVec.and_zero,
    BitVec.and_allOnes⟩

/-- Packing the fields of a register-format word clears its shamt. -/
theorem packR_fields_of_opcR {w : Word} (h : opcodeField w = opcR) :
    packR (rsField w) (rtField w) (rdField w) (functField w) = w &&& 0xFFFFF83F := by
  obtain ⟨hopcode, hrs, hrt, hrd, hshamt, hfunct⟩ := fields_and_registerMask w
  have hpack := (packR_fields_iff (w &&& 0xFFFFF83F)).mpr ⟨hopcode.trans h, hshamt⟩
  rwa [hrs, hrt, hrd, hfunct] at hpack

/-- Packing the function code alone of a register-format word clears all other bits. -/
theorem packR_funct_of_opcR {w : Word} (h : opcodeField w = opcR) :
    packR 0 0 0 (functField w) = w &&& 0xFC00003F := by
  obtain ⟨hopcode, hrs, hrt, hrd, hshamt, hfunct⟩ := fields_and_functMask w
  have hpack := (packR_fields_iff (w &&& 0xFC00003F)).mpr ⟨hopcode.trans h, hshamt⟩
  rwa [hrs, hrt, hrd, hfunct] at hpack

/-- Settles O4: along the decoder's tests, each packing of the word's fields is the word under the mask. -/
theorem decodedWordReencodesToItsExaminedBits : Obligations.DecodedWordReencodesToItsExaminedBits := by
  intro c w i h
  unfold decodeWith at h
  have hall : w &&& 0xFFFFFFFF = w := BitVec.and_allOnes
  split_ifs at h with hR hopcode hopcode hopcode hopcode
  · unfold decodeRegister at h
    split_ifs at h with hfunct hfunct hfunct hfunct hfunct <;> cases h <;> simp only [encodeWith, ← hfunct]
    · exact packR_fields_of_opcR hR
    · exact packR_fields_of_opcR hR
    · exact packR_fields_of_opcR hR
    · exact packR_fields_of_opcR hR
    · exact packR_funct_of_opcR hR
  all_goals cases h; simp only [encodeWith, examinedBits, ← hopcode, hall]
  · exact packI_fields w
  · exact packI_fields w
  · exact packJ_fields w
  · exact packJ_fields w

/-! The opcode table (R80). -/

/-- The mask and match of a function row compare the two codes. -/
theorem and_functMask_eq_iff (w : Word) (funct : Code6) :
    w &&& 0xFC00003F = packR 0 0 0 funct ↔ opcodeField w = opcR ∧ functField w = funct := by
  obtain ⟨hopcode, -, -, -, -, hfunct⟩ := fields_and_functMask w
  constructor
  · intro h
    rw [h] at hopcode hfunct
    exact ⟨hopcode.symm.trans (opcodeField_packR ..), hfunct.symm.trans (functField_packR ..)⟩
  · rintro ⟨hR, rfl⟩
    exact (packR_funct_of_opcR hR).symm

/-- The mask and match of an opcode row compare the opcode. -/
theorem and_opcodeMask_eq_iff (w : Word) (opcode : Code6) :
    w &&& 0xFC000000 = packJ opcode 0 ↔ opcodeField w = opcode := by
  constructor
  · intro h
    have hopcode := opcodeField_and w 0xFC000000
    rw [h, opcodeField_packJ] at hopcode
    exact (hopcode.trans BitVec.and_allOnes).symm
  · rintro rfl
    have hpack := packJ_fields (w &&& 0xFC000000)
    have hopcode : opcodeField (w &&& 0xFC000000) = opcodeField w := (opcodeField_and ..).trans BitVec.and_allOnes
    have haddress : addressField (w &&& 0xFC000000) = 0 := (BitVec.extractLsb'_and ..).trans BitVec.and_zero
    rw [← hpack, hopcode, haddress]

/-- A row's mask and match compare the codes that select its instruction. -/
theorem and_rowMask_eq_rowMatch_iff (w : Word) (row : Instr) :
    w &&& rowMask row = rowMatch row ↔ row.SelectedBy params w := by
  cases row with
  | add _ _ _ => exact and_functMask_eq_iff w params.fnAdd
  | addu _ _ _ => exact and_functMask_eq_iff w params.fnAddu
  | sub _ _ _ => exact and_functMask_eq_iff w params.fnSub
  | subu _ _ _ => exact and_functMask_eq_iff w params.fnSubu
  | syscall => exact and_functMask_eq_iff w params.fnSyscall
  | addi _ _ _ => exact and_opcodeMask_eq_iff w params.opcAddi
  | addiu _ _ _ => exact and_opcodeMask_eq_iff w params.opcAddiu
  | j _ => exact and_opcodeMask_eq_iff w params.opcJ
  | jal _ => exact and_opcodeMask_eq_iff w params.opcJal

/-- A word with the codes of a row decodes to an instruction of that row. -/
theorem decode_of_selectedBy {w : Word} {row : Instr} (h : row.SelectedBy params w) :
    ∃ i : Instr, decode w = .instr i ∧ rowMatch i = rowMatch row := by
  have hc := params_consistent
  cases row with
  | add _ _ _ => exact ⟨_, decodeWith_of_fnAdd h.1 h.2, rfl⟩
  | addu _ _ _ => exact ⟨_, decodeWith_of_fnAddu hc h.1 h.2, rfl⟩
  | sub _ _ _ => exact ⟨_, decodeWith_of_fnSub hc h.1 h.2, rfl⟩
  | subu _ _ _ => exact ⟨_, decodeWith_of_fnSubu hc h.1 h.2, rfl⟩
  | syscall => exact ⟨_, decodeWith_of_fnSyscall hc h.1 h.2, rfl⟩
  | addi _ _ _ => exact ⟨_, decodeWith_of_opcAddi hc h, rfl⟩
  | addiu _ _ _ => exact ⟨_, decodeWith_of_opcAddiu hc h, rfl⟩
  | j _ => exact ⟨_, decodeWith_of_opcJ hc h, rfl⟩
  | jal _ => exact ⟨_, decodeWith_of_opcJal hc h, rfl⟩

/-- A row's match tells its mask: a match with opcode 0 is a function row's. -/
theorem rowMask_eq_of_rowMatch (i : Instr) :
    rowMask i = if opcodeField (rowMatch i) = opcR then 0xFC00003F else 0xFC000000 := by
  cases i with
  | add _ _ _ | addu _ _ _ | sub _ _ _ | subu _ _ _ | syscall => exact (if_pos (by simp only [rowMatch]; decide)).symm
  | addi _ _ _ | addiu _ _ _ | j _ | jal _ => exact (if_neg (by simp only [rowMatch]; decide)).symm

/-- Settles O5: a row's mask and match compare its codes, which select the row's instruction; conversely the word of an
instruction meets its own row, which is the given one because equal matches have equal masks. -/
theorem opcodeTableSelectsTheInstruction : Obligations.OpcodeTableSelectsTheInstruction := by
  intro w row
  constructor
  · exact fun h => decode_of_selectedBy ((and_rowMask_eq_rowMatch_iff w row).mp h)
  · rintro ⟨i, hdecode, hmatch⟩
    have hi := (and_rowMask_eq_rowMatch_iff w i).mpr (selectedBy_of_decodeWith hdecode)
    rwa [rowMask_eq_of_rowMatch, hmatch, ← rowMask_eq_of_rowMatch] at hi

/-! The ignored bits (R82). -/

/-- The instruction of a register-format word depends on no field but rs, rt, rd and funct. -/
theorem decodeRegister_toInstr_congr (c : Config) {w v : Word} (hrs : rsField w = rsField v)
    (hrt : rtField w = rtField v) (hrd : rdField w = rdField v) (hfunct : functField w = functField v) :
    (decodeRegister c w).toInstr = (decodeRegister c v).toInstr := by
  unfold decodeRegister
  rw [hrs, hrt, hrd, hfunct]
  split_ifs <;> rfl

/-- Masking shamt out does not change the instruction. -/
theorem decode_toInstr_and_registerMask {w : Word} (h : opcodeField w = opcR) :
    (decode (w &&& 0xFFFFF83F)).toInstr = (decode w).toInstr := by
  obtain ⟨hopcode, hrs, hrt, hrd, -, hfunct⟩ := fields_and_registerMask w
  unfold decode
  rw [decodeWith_of_opcR params (hopcode.trans h), decodeWith_of_opcR params h]
  exact decodeRegister_toInstr_congr params hrs hrt hrd hfunct

/-- Settles O6: both words agree with their masked words, which are one; and every syscall word decodes to `syscall`. -/
theorem ignoredBitsChangeNothing : Obligations.IgnoredBitsChangeNothing := by
  constructor
  · intro w v hw hwv
    have hv : opcodeField v = opcR := by
      rw [← (fields_and_registerMask v).1, ← hwv, (fields_and_registerMask w).1, hw]
    rw [← decode_toInstr_and_registerMask hw, hwv, decode_toInstr_and_registerMask hv]
  · intro w s hR hfunct
    have hw : decode w = .instr .syscall := decodeWith_of_fnSyscall params_consistent hR hfunct
    have hcanonical : decode 0x0000000C = .instr .syscall := decode_encode .syscall
    rw [dispatch_of_instr hw, dispatch_of_instr hcanonical]

/-! The three outcomes of decoding (R83, R84, R95). -/

theorem decode_of_unknown_opcode {w : Word} (h : opcodeField w ∉ knownOpcodes) :
    decode w = .error (.unknownOpcode (opcodeField w) w) := by
  simp only [knownOpcodes, List.mem_cons, List.not_mem_nil, or_false, not_or] at h
  simp [decode, decodeWith, h]

theorem decode_of_unknown_funct {w : Word} (hR : opcodeField w = opcR) (h : functField w ∉ knownFuncts) :
    decode w = .error (.unknownFunction (functField w) w) := by
  simp only [knownFuncts, List.mem_cons, List.not_mem_nil, or_false, not_or] at h
  rw [decode, decodeWith_of_opcR params hR]
  simp [decodeRegister, h]

/-- Known codes select an instruction: `unknown_code_of_decode_error`, read the other way. -/
theorem decode_of_known_codes {w : Word} (hopcode : opcodeField w ∈ knownOpcodes)
    (hfunct : opcodeField w = opcR → functField w ∈ knownFuncts) : ∃ i : Instr, decode w = .instr i := by
  cases h : decode w with
  | instr i => exact ⟨i, rfl⟩
  | error e =>
    obtain hunknown | ⟨hR, hunknown⟩ := unknown_code_of_decode_error h
    · exact absurd hopcode hunknown
    · exact absurd (hfunct hR) hunknown

theorem opcR_mem_knownOpcodes : opcR ∈ knownOpcodes := List.mem_cons_self ..

/-- Settles O7: every word is in one of the three cases, and each case answers the three questions. -/
theorem decodeErrorsAreExact : Obligations.DecodeErrorsAreExact := by
  intro w
  by_cases hopcode : opcodeField w ∈ knownOpcodes
  case neg =>
    have hR : opcodeField w ≠ opcR := fun h => hopcode (h ▸ opcR_mem_knownOpcodes)
    simp [decode_of_unknown_opcode hopcode, hopcode, hR]
  by_cases hfunct : opcodeField w = opcR → functField w ∈ knownFuncts
  case pos =>
    obtain ⟨i, hi⟩ := decode_of_known_codes hopcode hfunct
    simpa [hi, hopcode] using hfunct
  obtain ⟨hR, hunknown⟩ := Classical.not_imp.mp hfunct
  simp [decode_of_unknown_funct hR hunknown, opcR_mem_knownOpcodes, hR, hunknown]

/-- Settles O8: two counts over 64 words each. -/
theorem fiftyNineCodesOfEachKindSelectNothing : Obligations.FiftyNineCodesOfEachKindSelectNothing := by
  constructor <;> decide

/-- Settles O10. -/
theorem sampleWordsDecode : Obligations.SampleWordsDecode := by
  unfold Obligations.SampleWordsDecode
  decide

end Sys2Proof
end

section
/-! PROOFS. What one word does (10_state.md R23, R26, R28; 45_step_and_run.md R175; 60_exceptions.md R190). Everything
an instruction and a word can do, with the instruction named; which parts of the state no word reads; and the causes of
the faults. -/

namespace Sys2Proof.Machine

/-! Everything an execution can do, read backwards. -/

/-- An execution answers one state. -/
theorem eq_of_exec_next {i : Instr} {s t u : State} (hu : exec i s = .next u) (ht : exec i s = .next t) : t = u :=
  Host.Outcome.next.inj (ht.symm.trans hu)

/-- An instruction writes its destination, or prints where it is `syscall` with number 0, or raises a fault. -/
theorem exec_cases {i : Instr} {s t : State} (h : exec i s = .next t) :
    (∃ r v, destination i = some r ∧ t = s.writeReg params r v) ∨
    (i = .syscall ∧ s.x params.regV0 = sysPrintInt ∧ t = s.emit (printText (s.x params.regA0))) ∨
    (∃ f, t = s.raise f) := by
  cases i with
  | add rs rt rd => exact .inl ⟨rd, _, rfl, eq_of_exec_next (exec_add ..) h⟩
  | addu rs rt rd => exact .inl ⟨rd, _, rfl, eq_of_exec_next (exec_addu ..) h⟩
  | sub rs rt rd => exact .inl ⟨rd, _, rfl, eq_of_exec_next (exec_sub ..) h⟩
  | subu rs rt rd => exact .inl ⟨rd, _, rfl, eq_of_exec_next (exec_subu ..) h⟩
  | addi rs rt imm => exact .inl ⟨rt, _, rfl, eq_of_exec_next (exec_addi ..) h⟩
  | addiu rs rt imm => exact .inl ⟨rt, _, rfl, eq_of_exec_next (exec_addiu ..) h⟩
  | j address => exact .inr (.inr ⟨_, eq_of_exec_next (exec_j ..) h⟩)
  | jal address => exact .inr (.inr ⟨_, eq_of_exec_next (exec_jal ..) h⟩)
  | syscall =>
    have ht := eq_of_exec_next (exec_syscall s) h
    split at ht
    · exact .inr (.inl ⟨rfl, ‹_›, ht⟩)
    · exact .inr (.inr ⟨_, ht⟩)

/-- A word does what an instruction it decodes to can do, or raises its decode fault. -/
theorem dispatch_cases {s t : State} {w : Word} (h : dispatch s w = .next t) :
    (∃ i r v, decode w = .instr i ∧ destination i = some r ∧ t = s.writeReg params r v) ∨
    (decode w = .instr .syscall ∧ s.x params.regV0 = sysPrintInt ∧ t = s.emit (printText (s.x params.regA0))) ∨
    (∃ f, t = s.raise f) := by
  cases hw : decode w with
  | instr i =>
    rw [dispatch_of_instr hw] at h
    obtain ⟨r, v, hdest, rfl⟩ | ⟨rfl, hv0, rfl⟩ | ⟨f, rfl⟩ := exec_cases h
    · exact .inl ⟨i, r, v, rfl, hdest, rfl⟩
    · exact .inr (.inl ⟨rfl, hv0, rfl⟩)
    · exact .inr (.inr ⟨f, rfl⟩)
  | error e =>
    rw [dispatch_of_error hw] at h
    exact .inr (.inr ⟨decodeFault e, (Host.Outcome.next.inj h).symm⟩)

/-- `execute_one` answers a next state: by a word's effect, or by nothing on a Faulted state. -/
theorem executeOne_effect (s : State) (w : Word) : ∃ t, executeOne s w = .next t ∧ (t = s ∨ Effect s t) := by
  cases h : s.status with
  | running =>
    obtain ⟨t, ht, heffect⟩ := dispatch_effect s w
    exact ⟨t, (executeOne_running w h).trans ht, .inr heffect⟩
  | faulted f => exact ⟨s, executeOne_faulted w h, .inl rfl⟩

theorem Effect.mem {s t : State} (h : Effect s t) : t.mem = s.mem := by
  cases h <;> simp

theorem completesWhole_writeReg {s : State} (hs : s.status = .running) (r : RegNum) (v : Word) :
    CompletesWhole s (s.writeReg params r v) := by
  refine ⟨(s.writeReg_status ..).trans hs, s.writeReg_mem .., s.writeReg_words ..,
    .inl ⟨s.writeReg_out .., r, fun k hk => ?_⟩⟩
  rw [State.writeReg_params_x, if_neg hk]

theorem completesWhole_print {s : State} (hs : s.status = .running) :
    CompletesWhole s (s.emit (printText (s.x params.regA0))) :=
  ⟨hs, rfl, rfl, .inr ⟨fun _ => rfl, rfl⟩⟩

/-- A completion leaves the pc to the loop, so it is one after the loop's advance too. -/
theorem CompletesWhole.advancePc {s t : State} (h : CompletesWhole s t) : CompletesWhole s t.advancePc :=
  ⟨h.status, h.memory, h.words, h.effect⟩

/-- An effect on a Running state is a fault's entry or a whole completion (R175). -/
theorem Effect.faults_or_completes {s t : State} (h : Effect s t) (hs : s.status = .running) :
    FaultsWithNoWrite s t ∨ CompletesWhole s t := by
  cases h with
  | write r v => exact .inr (completesWhole_writeReg hs r v)
  | print hv0 => exact .inr (completesWhole_print hs)
  | fault f => exact .inl ⟨f, rfl⟩

/-! Parts of the state that no word reads. -/

/-- A change of the state that no register, no status and no operation of a word sees. -/
structure Unread (g : State → State) : Prop where
  x : ∀ s r, (g s).x r = s.x r
  status : ∀ s, (g s).status = s.status
  writeReg : ∀ s r v, (g s).writeReg params r v = g (s.writeReg params r v)
  emit : ∀ s bytes, (g s).emit bytes = g (s.emit bytes)
  raise : ∀ s f, (g s).raise f = g (s.raise f)

section
variable {g : State → State} (hg : Unread g)
include hg

/-- An instruction answers the changed state for the changed state. -/
theorem Unread.exec_next {i : Instr} {s t : State} (h : exec i s = .next t) : exec i (g s) = .next (g t) := by
  cases i with
  | add rs rt rd => rw [eq_of_exec_next (exec_add ..) h, exec_add, hg.x, hg.x, hg.writeReg]
  | addu rs rt rd => rw [eq_of_exec_next (exec_addu ..) h, exec_addu, hg.x, hg.x, hg.writeReg]
  | sub rs rt rd => rw [eq_of_exec_next (exec_sub ..) h, exec_sub, hg.x, hg.x, hg.writeReg]
  | subu rs rt rd => rw [eq_of_exec_next (exec_subu ..) h, exec_subu, hg.x, hg.x, hg.writeReg]
  | addi rs rt imm => rw [eq_of_exec_next (exec_addi ..) h, exec_addi, hg.x, hg.writeReg]
  | addiu rs rt imm => rw [eq_of_exec_next (exec_addiu ..) h, exec_addiu, hg.x, hg.writeReg]
  | j address => rw [eq_of_exec_next (exec_j ..) h, exec_j, hg.raise]
  | jal address => rw [eq_of_exec_next (exec_jal ..) h, exec_jal, hg.raise]
  | syscall =>
    rw [eq_of_exec_next (exec_syscall s) h, exec_syscall, hg.x, hg.x, hg.emit, hg.raise]
    exact congrArg _ (apply_ite g ..).symm

theorem Unread.dispatch_next {s t : State} {w : Word} (h : dispatch s w = .next t) :
    dispatch (g s) w = .next (g t) := by
  cases hw : decode w with
  | instr i => rw [dispatch_of_instr hw] at h ⊢; exact hg.exec_next h
  | error e =>
    rw [dispatch_of_error hw] at h ⊢
    rw [← Host.Outcome.next.inj h, hg.raise]

theorem Unread.executeOne_next {s t : State} {w : Word} (h : executeOne s w = .next t) :
    executeOne (g s) w = .next (g t) := by
  cases hs : s.status with
  | running =>
    rw [executeOne_running w hs] at h
    rw [executeOne_running w ((hg.status s).trans hs), hg.dispatch_next h]
  | faulted f =>
    rw [executeOne_faulted w hs] at h
    rw [executeOne_faulted w ((hg.status s).trans hs), Host.Outcome.next.inj h]

end

/-- The state with its memory replaced. -/
def State.withMem (m : Mem) (s : State) : State := { s with mem := m }

/-- The state with its pc replaced. -/
def State.withPc (p : PcWord) (s : State) : State := { s with pc := p }

theorem unread_withMem (m : Mem) : Unread (State.withMem m) :=
  ⟨fun _ _ => rfl, fun _ => rfl, fun _ _ _ => rfl, fun _ _ => rfl, fun _ _ => rfl⟩

theorem unread_withPc (p : PcWord) : Unread (State.withPc p) :=
  ⟨fun _ _ => rfl, fun _ => rfl, fun _ _ _ => rfl, fun _ _ => rfl, fun _ _ => rfl⟩

theorem unread_withStream (words : List Word) : Unread (State.withStream · words) :=
  ⟨fun _ _ => rfl, fun _ => rfl, fun _ _ _ => rfl, fun _ _ => rfl, fun _ _ => rfl⟩

/-- Settles O26: no effect changes the memory, and replacing it is unread. -/
theorem memoryIsNeitherReadNorWritten : Obligations.MemoryIsNeitherReadNorWritten := by
  intro s w m
  obtain ⟨t, ht, heffect⟩ := executeOne_effect s w
  exact ⟨t, ht, heffect.elim (fun h => h ▸ rfl) Effect.mem, (unread_withMem m).executeOne_next ht⟩

/-- Settles O28: no effect changes the pc, and replacing it is unread. -/
theorem executeOneIgnoresThePc : Obligations.ExecuteOneIgnoresThePc := by
  intro s w p
  obtain ⟨t, ht, heffect⟩ := executeOne_effect s w
  exact ⟨t, ht, heffect.elim (fun h => h ▸ rfl) fun h => h.pc_words.1, (unread_withPc p).executeOne_next ht⟩

/-! The registers an instruction reads (10_state.md R23). -/

/-- From `s` and from `v` an instruction does the same: the same value in its destination and nothing in any other
register, the same status, the same bytes. -/
def RunsAlike (i : Instr) (s v : State) : Prop :=
  ∃ (t u : State) (bytes : List Byte), exec i s = .next t ∧ exec i v = .next u ∧
    t.pc = s.pc ∧ (∀ r : RegNum, destination i ≠ some r → t.x r = s.x r) ∧
    (∀ r : RegNum, destination i = some r → t.x r = u.x r) ∧ t.status = u.status ∧
    t.out = s.out ++ bytes ∧ u.out = v.out ++ bytes

section
variable {i : Instr} {s v : State} (hstatus : s.status = v.status)

include hstatus in
theorem RunsAlike.of_writeReg {d : RegNum} {k : Word} (hd : destination i = some d)
    (hs : exec i s = .next (s.writeReg params d k)) (hv : exec i v = .next (v.writeReg params d k)) :
    RunsAlike i s v := by
  refine ⟨_, _, [], hs, hv, s.writeReg_pc .., fun r hr => ?_, fun r hr => ?_, ?_, ?_, ?_⟩
  · have : r ≠ d := fun h => hr (h ▸ hd)
    rw [State.writeReg_params_x, if_neg this]
  · cases hd.symm.trans hr
    simp [State.writeReg_params_x]
  · simpa using hstatus
  · simp
  · simp

theorem RunsAlike.of_raise {f : Fault} (hd : destination i = none) (hs : exec i s = .next (s.raise f))
    (hv : exec i v = .next (v.raise f)) : RunsAlike i s v := by
  refine ⟨_, _, [], hs, hv, rfl, fun _ _ => rfl, fun r hr => ?_, rfl, by simp, by simp⟩
  cases hd.symm.trans hr

include hstatus in
theorem RunsAlike.of_emit {bytes : List Byte} (hd : destination i = none) (hs : exec i s = .next (s.emit bytes))
    (hv : exec i v = .next (v.emit bytes)) : RunsAlike i s v := by
  refine ⟨_, _, bytes, hs, hv, rfl, fun _ _ => rfl, fun r hr => ?_, hstatus, rfl, rfl⟩
  cases hd.symm.trans hr

end

/-- `syscall` reads the number, and the argument only where the number is 0. -/
theorem syscall_runsAlike {s v : State} (hstatus : s.status = v.status)
    (hread : ∀ r ∈ readSet .syscall s, s.x r = v.x r) : RunsAlike .syscall s v := by
  by_cases hv0 : s.x params.regV0 = sysPrintInt
  · simp only [readSet, hv0, if_true, List.mem_cons, List.not_mem_nil, or_false, forall_eq_or_imp, forall_eq] at hread
    obtain ⟨hnumber, hargument⟩ := hread
    refine .of_emit (bytes := printText (s.x params.regA0)) hstatus rfl ?_ ?_
    · rw [exec_syscall, if_pos hv0]
    · rw [exec_syscall, if_pos hnumber.symm, hargument]
  · simp only [readSet, hv0, if_false, List.mem_singleton, forall_eq] at hread
    refine .of_raise (f := .unsupportedSyscall (s.x params.regV0)) rfl ?_ ?_
    · rw [exec_syscall, if_neg hv0]
    · rw [exec_syscall, if_neg (hread ▸ hv0), hread]

theorem agree_of_agree_on_pair {s v : State} {a b : RegNum} (h : ∀ r ∈ [a, b], s.x r = v.x r) :
    s.x a = v.x a ∧ s.x b = v.x b := by
  simpa using h

/-- What each instruction writes, its fault and its bytes are built from the registers of its read set. -/
theorem exec_runsAlike {i : Instr} {s v : State} (hstatus : s.status = v.status)
    (hread : ∀ r ∈ readSet i s, s.x r = v.x r) : RunsAlike i s v := by
  cases i with
  | syscall => exact syscall_runsAlike hstatus hread
  | j address => exact .of_raise rfl (exec_j address s) (exec_j address v)
  | jal address => exact .of_raise rfl (exec_jal address s) (exec_jal address v)
  | add rs rt rd =>
    obtain ⟨hrs, hrt⟩ := agree_of_agree_on_pair hread
    exact .of_writeReg hstatus rfl (exec_add rs rt rd s) (by rw [exec_add, hrs, hrt])
  | addu rs rt rd =>
    obtain ⟨hrs, hrt⟩ := agree_of_agree_on_pair hread
    exact .of_writeReg hstatus rfl (exec_addu rs rt rd s) (by rw [exec_addu, hrs, hrt])
  | sub rs rt rd =>
    obtain ⟨hrs, hrt⟩ := agree_of_agree_on_pair hread
    exact .of_writeReg hstatus rfl (exec_sub rs rt rd s) (by rw [exec_sub, hrs, hrt])
  | subu rs rt rd =>
    obtain ⟨hrs, hrt⟩ := agree_of_agree_on_pair hread
    exact .of_writeReg hstatus rfl (exec_subu rs rt rd s) (by rw [exec_subu, hrs, hrt])
  | addi rs rt imm =>
    have hrs : s.x rs = v.x rs := hread rs (List.mem_singleton_self rs)
    exact .of_writeReg hstatus rfl (exec_addi rs rt imm s) (by rw [exec_addi, hrs])
  | addiu rs rt imm =>
    have hrs : s.x rs = v.x rs := hread rs (List.mem_singleton_self rs)
    exact .of_writeReg hstatus rfl (exec_addiu rs rt imm s) (by rw [exec_addiu, hrs])

/-- Settles O25. -/
theorem instructionsReadAndWriteTheirRegistersOnly : Obligations.InstructionsReadAndWriteTheirRegistersOnly :=
  fun _ _ _ hstatus hread => exec_runsAlike hstatus hread

/-! The causes of the faults (60_exceptions.md R190). -/

theorem knownOpcodes_eq : knownOpcodes = [0, 0x08, 0x09, 0x02, 0x03] := rfl
theorem knownFuncts_eq : knownFuncts = [0x20, 0x21, 0x22, 0x23, 0x0C] := rfl

/-- The status a word leaves on a Running state, with its cause: the faults' table of R190, and Running for a word of a
completing instruction. -/
inductive Verdict (s : State) (w : Word) : Status → Prop where
  | unknownOpcode (h : opcodeField w ∉ knownOpcodes) : Verdict s w (.faulted (.unknownOpcode (opcodeField w) w))
  | unknownFunction (hR : opcodeField w = opcR) (h : functField w ∉ knownFuncts) :
    Verdict s w (.faulted (.unknownFunction (functField w) w))
  | unsupportedSyscall (hR : opcodeField w = opcR) (h : functField w = params.fnSyscall)
    (hv0 : s.x params.regV0 ≠ 0) : Verdict s w (.faulted (.unsupportedSyscall (s.x params.regV0)))
  | notYetImplemented (h : opcodeField w = params.opcJ ∨ opcodeField w = params.opcJal) :
    Verdict s w (.faulted (.notYetImplemented (opcodeField w) (addressField w)))
  | registerFormat (hR : opcodeField w = opcR) (h : functField w ∈ knownFuncts)
    (hv0 : functField w = params.fnSyscall → s.x params.regV0 = 0) : Verdict s w .running
  | immediateFormat (h : opcodeField w = params.opcAddi ∨ opcodeField w = params.opcAddiu) : Verdict s w .running

/-- A decode error is one of the two decode faults, under its condition. -/
theorem verdict_of_decode_error (s : State) {w : Word} {e : DecodeError} (h : decode w = .error e) :
    Verdict s w (.faulted (decodeFault e)) := by
  obtain hunknown | ⟨hR, hunknown⟩ := unknown_code_of_decode_error h
  · cases h.symm.trans (decode_of_unknown_opcode hunknown)
    exact .unknownOpcode hunknown
  · cases h.symm.trans (decode_of_unknown_funct hR hunknown)
    exact .unknownFunction hR hunknown

/-- A word of an arithmetic register-format instruction leaves the state Running. -/
theorem verdict_of_arithmetic_funct (s : State) {w : Word} (hR : opcodeField w = opcR)
    (h : functField w ∈ [params.fnAdd, params.fnAddu, params.fnSub, params.fnSubu]) : Verdict s w .running := by
  refine .registerFormat hR (List.mem_append_left [params.fnSyscall] h) fun hsyscall => ?_
  rw [hsyscall] at h
  exact absurd h (by decide)

/-- A word that decodes leaves the status its codes and the syscall number say. -/
theorem verdict_of_decode_instr {s t : State} {w : Word} {i : Instr} (hs : s.status = .running)
    (hw : decode w = .instr i) (h : exec i s = .next t) : Verdict s w t.status := by
  have hselected := selectedBy_of_decodeWith hw
  have hwrite : ∀ {r v}, exec i s = .next (s.writeReg params r v) → t.status = .running :=
    fun hexec => (status_eq_of_exec_writeReg hexec h).trans hs
  cases i with
  | add rs rt rd =>
    rw [hwrite (exec_add ..)]
    exact verdict_of_arithmetic_funct s hselected.1 (by simp [hselected.2])
  | addu rs rt rd =>
    rw [hwrite (exec_addu ..)]
    exact verdict_of_arithmetic_funct s hselected.1 (by simp [hselected.2])
  | sub rs rt rd =>
    rw [hwrite (exec_sub ..)]
    exact verdict_of_arithmetic_funct s hselected.1 (by simp [hselected.2])
  | subu rs rt rd =>
    rw [hwrite (exec_subu ..)]
    exact verdict_of_arithmetic_funct s hselected.1 (by simp [hselected.2])
  | addi rs rt imm =>
    rw [hwrite (exec_addi ..)]
    exact .immediateFormat (.inl hselected)
  | addiu rs rt imm =>
    rw [hwrite (exec_addiu ..)]
    exact .immediateFormat (.inr hselected)
  | j address =>
    cases hw.symm.trans (decodeWith_of_opcJ params_consistent hselected)
    rw [eq_of_exec_next (exec_j ..) h, State.raise_status, ← show opcodeField w = params.opcJ from hselected]
    exact .notYetImplemented (.inl hselected)
  | jal address =>
    cases hw.symm.trans (decodeWith_of_opcJal params_consistent hselected)
    rw [eq_of_exec_next (exec_jal ..) h, State.raise_status, ← show opcodeField w = params.opcJal from hselected]
    exact .notYetImplemented (.inr hselected)
  | syscall =>
    obtain ⟨hR, hfunct⟩ := hselected
    rw [eq_of_exec_next (exec_syscall s) h]
    split
    case isTrue hv0 =>
      rw [State.emit_status, hs]
      exact .registerFormat hR (by simp [knownFuncts, hfunct]) fun _ => hv0
    case isFalse hv0 => exact .unsupportedSyscall hR hfunct hv0

theorem verdict_of_dispatch {s t : State} {w : Word} (hs : s.status = .running) (h : dispatch s w = .next t) :
    Verdict s w t.status := by
  cases hw : decode w with
  | instr i => exact verdict_of_decode_instr hs hw (dispatch_of_instr hw s ▸ h)
  | error e =>
    cases (dispatch_of_error hw s).symm.trans h
    exact verdict_of_decode_error s hw

/-- Settles O29: the status is a verdict, whose cause excludes the causes of the other verdicts, as the codes differ. -/
theorem faultsHaveExactlyTheirCauses : Obligations.FaultsHaveExactlyTheirCauses := by
  intro s w hs
  obtain ⟨t, ht, -⟩ := dispatch_effect s w
  refine ⟨t, ht, ?_⟩
  have hverdict := verdict_of_dispatch hs ht
  generalize t.status = status at hverdict
  simp only [knownOpcodes_eq, knownFuncts_eq, opcR_eq, params_opcAddi, params_opcAddiu, params_opcJ,
    params_opcJal, params_fnSyscall]
  cases hverdict with
  | unknownOpcode h => simp_all [knownOpcodes_eq]
  | unknownFunction hR h => simp_all [knownFuncts_eq, opcR_eq]
  | unsupportedSyscall hR h hv0 => simpa [hR, h, opcR_eq, params_fnSyscall] using hv0
  | notYetImplemented h => rcases h with h | h <;> simp [h, params_opcJ, params_opcJal]
  | registerFormat hR h hv0 => simp_all [knownFuncts_eq, opcR_eq, params_fnSyscall]
  | immediateFormat h => rcases h with h | h <;> simp [h, params_opcAddi, params_opcAddiu]

end Sys2Proof.Machine
end

section
/-! PROOFS. The step and the run (45_step_and_run.md; 70_reset_and_hazards.md R228, R229). Everything a step can do, with the
word and the instruction named (`Turn`); the invariants it keeps; then any number of turns and `execute_many`. -/

namespace Sys2Proof.Machine

@[simp] theorem reset_x (r : RegNum) : State.reset.x r = 0 := by simp [State.x, State.reset]

/-- Settles O32. -/
theorem resetIsAllZero : Obligations.ResetIsAllZero := by
  refine ⟨reset_x, rfl, fun i hi => ?_, rfl, rfl⟩
  exact if_pos hi

/-! Everything a step can do, read backwards. -/

theorem State.fetch_lt {s : State} {w : Word} (h : s.fetch = some w) : s.pc.toNat < s.words.length :=
  (List.getElem?_eq_some_iff.mp h).1

theorem State.phase_of_fetch {s : State} {w : Word} (hs : s.status = .running) (h : s.fetch = some w) :
    s.phase = .ready :=
  s.phase_eq_ready_iff.mpr ⟨hs, State.fetch_lt h⟩

theorem advance_writeReg {s : State} (hs : s.status = .running) (r : RegNum) (v : Word) :
    advance (s.writeReg params r v) = (s.writeReg params r v).advancePc :=
  advance_of_running ((s.writeReg_status ..).trans hs)

theorem advance_raise (s : State) (f : Fault) : advance (s.raise f) = s.raise f :=
  advance_of_faulted (s.raise_status f)

theorem advance_eq_ite (s : State) : advance s = if s.status = .running then s.advancePc else s := by
  cases h : s.status with
  | running => rw [advance_of_running h, if_pos rfl]
  | faulted f => rw [advance_of_faulted h, if_neg nofun]

/-- One turn of the loop from `s`: a stopped run stays; the word at the pc writes its destination or prints, and the pc
advances; or it raises a fault. -/
inductive Turn (s : State) : State → Prop where
  | stopped (h : s.phase ≠ .ready) : Turn s s
  | write (w : Word) (i : Instr) (r : RegNum) (v : Word) (hs : s.status = .running) (hfetch : s.fetch = some w)
    (hdecode : decode w = .instr i) (hdest : destination i = some r) : Turn s (s.writeReg params r v).advancePc
  | print (w : Word) (hs : s.status = .running) (hfetch : s.fetch = some w) (hdecode : decode w = .instr .syscall)
    (hv0 : s.x params.regV0 = sysPrintInt) : Turn s (s.emit (printText (s.x params.regA0))).advancePc
  | fault (f : Fault) (hready : s.phase = .ready) : Turn s (s.raise f)

/-- A step is one turn. -/
theorem turn_of_step {s t : State} (h : step s = .next t) : Turn s t := by
  obtain ⟨rfl, hstop⟩ | ⟨w, u, hs, hfetch, hdispatch, -, rfl⟩ := step_cases h
  · refine .stopped fun hready => ?_
    obtain ⟨hs, hlt⟩ := t.phase_eq_ready_iff.mp hready
    obtain hnone | ⟨f, hf⟩ := hstop
    · exact absurd (t.fetch_eq_none_iff.mp hnone) (Nat.not_le_of_lt hlt)
    · cases hs.symm.trans hf
  · obtain ⟨i, r, v, hdecode, hdest, rfl⟩ | ⟨hdecode, hv0, rfl⟩ | ⟨f, rfl⟩ := dispatch_cases hdispatch
    · rw [advance_writeReg hs]
      exact .write w i r v hs hfetch hdecode hdest
    · rw [advance_of_running (by exact hs)]
      exact .print w hs hfetch hdecode hv0
    · rw [advance_raise]
      exact .fault f (State.phase_of_fetch hs hfetch)

theorem step_next (s : State) : ∃ t, step s = .next t := by
  by_cases h : s.phase = .ready
  · obtain ⟨hs, hlt⟩ := s.phase_eq_ready_iff.mp h
    have hfetch : s.fetch = some s.words[s.pc.toNat] := List.getElem?_eq_getElem hlt
    obtain ⟨t, ht, -⟩ := dispatch_effect s s.words[s.pc.toNat]
    exact ⟨_, step_fetched hs hfetch ht⟩
  · exact ⟨s, step_of_stopped h⟩

theorem Turn.words {s t : State} (h : Turn s t) : t.words = s.words := by
  cases h <;> simp

theorem Turn.mem {s t : State} (h : Turn s t) : t.mem = s.mem := by
  cases h <;> simp

/-- A Ready turn completes and moves the pc by 1, or faults and keeps it (R171). -/
theorem Turn.of_ready {s t : State} (h : Turn s t) (hready : s.phase = .ready) :
    (CompletesWhole s t ∧ t.pc = s.pc + 1) ∨ ∃ f, t = s.raise f := by
  cases h with
  | stopped hstopped => exact absurd hready hstopped
  | write w i r v hs hfetch hdecode hdest => exact .inl ⟨(completesWhole_writeReg hs r v).advancePc, by simp⟩
  | print w hs hfetch hdecode hv0 => exact .inl ⟨(completesWhole_print hs).advancePc, rfl⟩
  | fault f _ => exact .inr ⟨f, rfl⟩

/-! One step. -/

/-- Settles O33. -/
theorem stepRunsTheDecodedInstruction : Obligations.StepRunsTheDecodedInstruction := by
  intro s t w i hs hfetch hdecode hexec
  rw [step_fetched hs hfetch ((dispatch_of_instr hdecode s).trans hexec)]
  exact congrArg _ (advance_eq_ite t)

/-- Settles O34. -/
theorem stepRecordsTheDecodeFault : Obligations.StepRecordsTheDecodeFault := by
  intro s w e hs hfetch hdecode
  rw [step_fetched hs hfetch (dispatch_of_error hdecode s), advance_raise]
  rfl

/-- Settles O37: an effect on a Running state, and a turn on a Ready one. -/
theorem aStepCompletesWholeOrFaultsWithNoWrite : Obligations.AStepCompletesWholeOrFaultsWithNoWrite := by
  constructor
  · intro s w hs
    obtain ⟨t, ht, heffect⟩ := dispatch_effect s w
    exact ⟨t, (executeOne_running w hs).trans ht,
      (heffect.faults_or_completes hs).imp_right fun h => ⟨h, heffect.pc_words.1⟩⟩
  · intro s hready
    obtain ⟨t, ht⟩ := step_next s
    exact ⟨t, ht, ((turn_of_step ht).of_ready hready).symm⟩

/-- Settles O38: a completed word's pc is one further, and the phase compares it with the length. -/
theorem theRunStateMachineHasTheseTransitionsOnly : Obligations.TheRunStateMachineHasTheseTransitionsOnly := by
  refine ⟨fun s => step_of_stopped, fun s hwords hready => ?_⟩
  obtain ⟨t, ht⟩ := step_next s
  refine ⟨t, ht, step_words ht, ?_⟩
  obtain ⟨-, hlt⟩ := s.phase_eq_ready_iff.mp hready
  obtain ⟨hcomplete, hpc⟩ | ⟨f, rfl⟩ := (turn_of_step ht).of_ready hready
  · have hnext : t.pc.toNat = s.pc.toNat + 1 :=
      hpc ▸ pcWord_add_one_toNat s.pc (lt_of_le_of_lt hlt hwords)
    have hphase := State.phase_of_running hcomplete.status
    rw [hnext, step_words ht] at hphase
    by_cases hend : s.pc.toNat + 1 < s.words.length
    · exact .inl ⟨by rw [hphase, if_pos hend], hnext, hend⟩
    · exact .inr (.inl ⟨by rw [hphase, if_neg hend], hnext, by omega⟩)
  · exact .inr (.inr (State.phase_of_faulted (s.raise_status f)))

/-- Settles O40. -/
theorem stepsKeepStreamAndMemory : Obligations.StepsKeepStreamAndMemory := by
  intro s t h
  have hmem := (turn_of_step h).mem
  exact ⟨step_words h, hmem, s.memRead_congr t hmem⟩

/-- Settles O43: a step keeps the memory itself. -/
theorem stepKeepsMemoryCanonical : Obligations.StepKeepsMemoryCanonical := by
  intro s t hwf h
  rwa [(turn_of_step h).mem]

/-- Settles O48: only the turn that prints changes the output, and its word is a syscall's. -/
theorem outputGrowsOnlyByPrintedLines : Obligations.OutputGrowsOnlyByPrintedLines := by
  intro s t h
  cases turn_of_step h with
  | stopped _ => exact .inl rfl
  | write w i r v _ _ _ _ => exact .inl (by simp)
  | fault f _ => exact .inl rfl
  | print w _ hfetch hdecode hv0 =>
    obtain ⟨hR, hfunct⟩ := selectedBy_of_decodeWith hdecode
    exact .inr ⟨rfl, hv0, w, hfetch, hR, hfunct⟩

/-! The run invariant (70_reset_and_hazards.md R228). -/

/-- The pc moves on from a word of an admitted stream without wrapping. -/
theorem pc_add_one_toNat_of_fetch {s : State} {w : Word} (hwords : streamAdmitted s.words)
    (hfetch : s.fetch = some w) : (s.pc + 1).toNat = s.pc.toNat + 1 :=
  pcWord_add_one_toNat s.pc (lt_of_le_of_lt (State.fetch_lt hfetch) hwords)

/-- Register `r` is the destination of a word below the pc. -/
def WrittenBelowPc (s : State) (r : RegNum) : Prop :=
  ∃ k : Nat, ∃ w : Word, ∃ i : Instr,
    k < s.pc.toNat ∧ s.words[k]? = some w ∧ decode w = .instr i ∧ destination i = some r

/-- What was below the pc is below a later pc. -/
theorem WrittenBelowPc.mono {s t : State} {r : RegNum} (h : WrittenBelowPc s r) (hwords : t.words = s.words)
    (hpc : s.pc.toNat ≤ t.pc.toNat) : WrittenBelowPc t r := by
  obtain ⟨k, w, i, hk, hfetch, hinstr⟩ := h
  exact ⟨k, w, i, lt_of_lt_of_le hk hpc, hwords ▸ hfetch, hinstr⟩

/-- Settles O41: a completed word brings its own index below the pc, its destination with it; a print adds a line. -/
theorem stepKeepsTheRunInvariant : Obligations.StepKeepsTheRunInvariant := by
  intro s t hinv h
  obtain ⟨hstream, hpc, hmem, hout, hregs⟩ := hinv
  cases turn_of_step h with
  | stopped _ => exact ⟨hstream, hpc, hmem, hout, hregs⟩
  | fault f _ => exact ⟨hstream, hpc, hmem, hout, hregs⟩
  | print w _ hfetch _ _ =>
    have hnext := pc_add_one_toNat_of_fetch hstream hfetch
    have hlt := State.fetch_lt hfetch
    exact ⟨hstream, hnext.trans_le hlt, hmem, .print _ _ hout,
      fun r hr => WrittenBelowPc.mono (hregs r hr) rfl (hnext ▸ Nat.le_succ _)⟩
  | write w i d v _ hfetch hdecode hdest =>
    have hnext := pc_add_one_toNat_of_fetch hstream hfetch
    have hlt := State.fetch_lt hfetch
    refine ⟨hstream, hnext.trans_le hlt, by simpa using hmem, by simpa using hout, fun r hr => ?_⟩
    by_cases hrd : r = d
    · exact ⟨s.pc.toNat, w, i, hnext ▸ Nat.lt_succ_self _, hfetch, hdecode, hrd ▸ hdest⟩
    · rw [State.advancePc_x, State.writeReg_params_x, if_neg hrd] at hr
      exact WrittenBelowPc.mono (hregs r hr) (by simp) (hnext ▸ Nat.le_succ _)

/-- Settles O42. -/
theorem resetMeetsTheRunInvariant : Obligations.ResetMeetsTheRunInvariant := fun _ hwords =>
  ⟨hwords, Nat.zero_le _, rfl, .empty, fun r hr => absurd (reset_x r) hr⟩

/-! Any number of turns, and `execute_many`. -/

theorem cycles_next (k : Nat) (s : State) : ∃ t, cycles k s = .next t := by
  induction k generalizing s with
  | zero => exact ⟨s, rfl⟩
  | succ k ih =>
    obtain ⟨u, hu⟩ := step_next s
    rw [cycles_succ_of_step hu]
    exact ih u

/-- `execute_many` on a state that its stream leaves no word to run changes nothing. -/
theorem executeMany_of_stopped {s : State} {words : List Word} (h : (s.withStream words).phase ≠ .ready) :
    executeMany s words = .next (s.withStream words) :=
  cycles_of_stopped h _

theorem phase_ne_ready_of_faulted {s : State} {f : Fault} (h : s.status = .faulted f) : s.phase ≠ .ready := by
  rw [State.phase_of_faulted h]
  exact nofun

theorem phase_ne_ready_of_length_le {s : State} (h : s.words.length ≤ s.pc.toNat) : s.phase ≠ .ready :=
  fun hready => absurd (s.phase_eq_ready_iff.mp hready).2 (Nat.not_lt.mpr h)

theorem phase_ne_faulted_of_running {s : State} (h : s.status = .running) : s.phase ≠ .faulted := by
  rw [State.phase_of_running h]
  split <;> exact nofun

theorem status_of_halted {s : State} (h : s.phase = .halted) : s.status = .running := by
  cases hs : s.status with
  | running => rfl
  | faulted f => cases (State.phase_of_faulted hs).symm.trans h

/-- Settles O35: no state named is Ready, and `executeOne` looks at the status only. -/
theorem stoppedRunsStayStopped : Obligations.StoppedRunsStayStopped :=
  ⟨fun _ => step_of_stopped, fun _ _ w => executeOne_faulted w,
    fun _ _ _ hf => executeMany_of_stopped (phase_ne_ready_of_faulted hf),
    fun _ _ hpc => executeMany_of_stopped (phase_ne_ready_of_length_le hpc),
    fun _ w hhalted => executeOne_running w (status_of_halted hhalted)⟩

/-- Settles O36. -/
theorem everyStepAnswersANextState : Obligations.EveryStepAnswersANextState :=
  ⟨step_next, fun s w => (executeOne_effect s w).imp fun _ h => h.1, fun _ _ => cycles_next _ _⟩

/-- The first turn of `execute_many` runs the word at the pc, over the stream supplied. -/
theorem executeMany_eq_cycles_advance {s t : State} {words : List Word} {w : Word} (hs : s.status = .running)
    (hw : words[s.pc.toNat]? = some w) (h : executeOne s w = .next t) :
    executeMany s words = cycles (words.length - (s.pc.toNat + 1)) (advance (t.withStream words)) := by
  have hlt : s.pc.toNat < words.length := (List.getElem?_eq_some_iff.mp hw).1
  have hcount : words.length - s.pc.toNat = words.length - (s.pc.toNat + 1) + 1 := by omega
  rw [executeOne_running w hs] at h
  have hstep := step_fetched (s := s.withStream words) hs hw ((unread_withStream words).dispatch_next h)
  rw [executeMany, hcount, cycles_succ_of_step hstep]

/-- Settles O44: after the first turn, the turns left are those of the next index, or a stopped run's. -/
theorem executeManyUnrollsToExecuteOne : Obligations.ExecuteManyUnrollsToExecuteOne := by
  intro s t words w hwords hs hw h
  rw [executeMany_eq_cycles_advance hs hw h]
  constructor
  · intro ht
    have hlt : s.pc.toNat < words.length := (List.getElem?_eq_some_iff.mp hw).1
    obtain ⟨u, hu, heffect⟩ := executeOne_effect s w
    cases hu.symm.trans h
    have hpc : t.pc = s.pc := heffect.elim (fun h => h ▸ rfl) fun h => h.pc_words.1
    have hnext : (t.pc + 1).toNat = s.pc.toNat + 1 := hpc ▸ pcWord_add_one_toNat s.pc (lt_of_le_of_lt hlt hwords)
    rw [advance_of_running (by exact ht), ← hnext]
    rfl
  · intro f ht
    rw [advance_of_faulted (f := f) (by exact ht)]
    exact cycles_of_stopped (s := t.withStream words) (phase_ne_ready_of_faulted (f := f) ht) _

/-- After `k` turns from a Running state over an admitted stream: the pc counts the words completed. -/
theorem cycles_pc {s t : State} {k : Nat} (hwords : streamAdmitted s.words) (hs : s.status = .running)
    (hpc : s.pc.toNat ≤ s.words.length) (h : cycles k s = .next t) :
    (t.status = .running → t.pc.toNat = min (s.pc.toNat + k) s.words.length) ∧
    (∀ f : Fault, t.status = .faulted f →
      s.pc.toNat ≤ t.pc.toNat ∧ t.pc.toNat < min (s.pc.toNat + k) s.words.length) := by
  induction k generalizing s with
  | zero =>
    cases h
    exact ⟨fun _ => (Nat.min_eq_left hpc).symm, fun f hf => nomatch hs.symm.trans hf⟩
  | succ k ih =>
    by_cases hready : s.phase = .ready
    case neg =>
      have hend : ¬ s.pc.toNat < s.words.length := fun hlt => hready (s.phase_eq_ready_iff.mpr ⟨hs, hlt⟩)
      cases (cycles_of_stopped hready (k + 1)).symm.trans h
      exact ⟨fun _ => by omega, fun f hf => nomatch hs.symm.trans hf⟩
    obtain ⟨-, hlt⟩ := s.phase_eq_ready_iff.mp hready
    obtain ⟨u, hstep, hrest⟩ := step_of_cycles_succ h
    obtain ⟨hcomplete, hnext⟩ | ⟨f, rfl⟩ := (turn_of_step hstep).of_ready hready
    · have hupc : u.pc.toNat = s.pc.toNat + 1 :=
        hnext ▸ pcWord_add_one_toNat s.pc (lt_of_le_of_lt hlt hwords)
      have huwords := step_words hstep
      obtain ⟨hrun, hfault⟩ := ih (huwords ▸ hwords) hcomplete.status (by rw [huwords]; omega) hrest
      rw [huwords] at hrun hfault
      exact ⟨fun ht => by rw [hrun ht]; omega, fun f hf => by have := hfault f hf; omega⟩
    · cases (cycles_of_stopped (phase_ne_ready_of_faulted (s.raise_status f)) k).symm.trans hrest
      exact ⟨nofun, fun _ _ => ⟨le_rfl, by simp only [State.raise_pc]; omega⟩⟩

/-- Settles O46. -/
theorem thePcCountsCompletedInstructions : Obligations.ThePcCountsCompletedInstructions :=
  fun _ _ _ hwords hs hpc h => cycles_pc hwords hs hpc h

/-- As many turns as the stream has words left end a run: were it Ready, its pc would be at the end. -/
theorem phase_ne_ready_of_all_cycles {s t : State} (hwords : streamAdmitted s.words)
    (h : cycles (s.words.length - s.pc.toNat) s = .next t) : t.phase ≠ .ready := by
  intro hready
  have hpc := cycles_pc_of_ready hwords h hready
  have hlt := (t.phase_eq_ready_iff.mp hready).2
  rw [cycles_words h] at hlt
  omega

/-- Settles O45: the run stops; a run that is Ready at its start has its pc counted by `cycles_pc`, any other is stopped
where it is. -/
theorem everyRunEnds : Obligations.EveryRunEnds := by
  intro s words hwords
  obtain ⟨t, ht⟩ := cycles_next (words.length - s.pc.toNat) (s.withStream words)
  have hstopped := phase_ne_ready_of_all_cycles (s := s.withStream words) hwords ht
  refine ⟨t, ht, hstopped, step_of_stopped hstopped, cycles_words ht, ?_⟩
  by_cases hready : (s.withStream words).phase = .ready
  case neg =>
    cases (cycles_of_stopped hready _).symm.trans ht
    refine ⟨le_rfl, fun hs hpc _ => le_antisymm hpc (Nat.le_of_not_lt fun hlt => ?_), fun hs hfaulted => ?_⟩
    · exact hready ((State.phase_eq_ready_iff _).mpr ⟨hs, hlt⟩)
    · exact absurd hfaulted (phase_ne_faulted_of_running hs)
  obtain ⟨hs, hlt⟩ := (State.phase_eq_ready_iff _).mp hready
  obtain ⟨hrun, hfault⟩ := cycles_pc hwords hs hlt.le ht
  simp only [State.withStream_pc, State.withStream_words] at hlt hrun hfault
  cases hstatus : t.status with
  | running =>
    have hpc := hrun hstatus
    exact ⟨by omega, fun _ _ _ => by omega, fun _ hfaulted => absurd hfaulted (phase_ne_faulted_of_running hstatus)⟩
  | faulted f =>
    obtain ⟨hle, hbelow⟩ := hfault f hstatus
    refine ⟨hle, fun _ _ hended => ?_, fun _ _ => by omega⟩
    cases (State.phase_of_faulted hstatus).symm.trans hended

/-! Streams of `addi $r,$r,k` words (45_step_and_run.md R182). -/

/-- The word of `addi $r,$r,k`. -/
def addiWord (p : RegNum × Imm16) : Word := encode (.addi p.1 p.1 p.2)

/-- The state after a turn on `addi $r,$r,k`. -/
def afterAddi (s : State) (p : RegNum × Imm16) : State :=
  (s.writeReg params p.1 (s.x p.1 + p.2.setWidth 32)).advancePc

@[simp] theorem afterAddi_pc (s : State) (p : RegNum × Imm16) : (afterAddi s p).pc = s.pc + 1 := by simp [afterAddi]
@[simp] theorem afterAddi_status (s : State) (p : RegNum × Imm16) : (afterAddi s p).status = s.status := by
  simp [afterAddi]
@[simp] theorem afterAddi_out (s : State) (p : RegNum × Imm16) : (afterAddi s p).out = s.out := by simp [afterAddi]
@[simp] theorem afterAddi_words (s : State) (p : RegNum × Imm16) : (afterAddi s p).words = s.words := by
  simp [afterAddi]

/-- Each register gains the immediates of a list whose first pair names it, or the list's rest. -/
theorem afterAddi_x_toNat (s : State) (p : RegNum × Imm16) (pairs : List (RegNum × Imm16)) (r : RegNum) :
    (((afterAddi s p).x r).toNat + immediateSum r pairs) % 2 ^ 32 =
      ((s.x r).toNat + immediateSum r (p :: pairs)) % 2 ^ 32 := by
  rw [afterAddi, State.advancePc_x, State.writeReg_params_x, immediateSum]
  by_cases hr : r = p.1
  · have himm := p.2.isLt
    simp only [hr, if_true, BitVec.toNat_add, BitVec.toNat_setWidth]
    omega
  · rw [if_neg hr, if_neg (Ne.symm hr), Nat.zero_add]

theorem step_addiWord {s : State} {p : RegNum × Imm16} (hs : s.status = .running)
    (hfetch : s.fetch = some (addiWord p)) : step s = .next (afterAddi s p) := by
  have hdispatch := (dispatch_of_instr (decode_encode (.addi p.1 p.1 p.2)) s).trans (exec_addi ..)
  rw [step_fetched hs hfetch hdispatch, advance_writeReg hs, afterAddi]

/-- Where the words left in the stream add immediates, that many turns add them up. -/
theorem cycles_addiWords (pairs : List (RegNum × Imm16)) {s : State} (hwords : streamAdmitted s.words)
    (hs : s.status = .running) (hleft : s.words.drop s.pc.toNat = pairs.map addiWord) :
    ∃ t : State, cycles pairs.length s = .next t ∧ t.status = .running ∧
      t.pc.toNat = s.pc.toNat + pairs.length ∧ t.out = s.out ∧
      ∀ r : RegNum, (t.x r).toNat = ((s.x r).toNat + immediateSum r pairs) % 2 ^ 32 := by
  induction pairs generalizing s with
  | nil => exact ⟨s, rfl, hs, rfl, rfl, fun r => (Nat.mod_eq_of_lt (s.x r).isLt).symm⟩
  | cons p pairs ih =>
    have hfetch : s.fetch = some (addiWord p) := by
      rw [State.fetch, ← List.head?_drop, hleft, List.map_cons, List.head?_cons]
    have hnext : (afterAddi s p).pc.toNat = s.pc.toNat + 1 := by
      rw [afterAddi_pc, pc_add_one_toNat_of_fetch hwords hfetch]
    have hrest : (afterAddi s p).words.drop (afterAddi s p).pc.toNat = pairs.map addiWord := by
      rw [afterAddi_words, hnext, ← List.tail_drop, hleft, List.map_cons, List.tail_cons]
    obtain ⟨t, ht, hstatus, hpc, hout, hx⟩ :=
      ih (s := afterAddi s p) (by rwa [afterAddi_words]) (by rwa [afterAddi_status]) hrest
    refine ⟨t, (cycles_succ_of_step (step_addiWord hs hfetch) _).trans ht, hstatus, ?_,
      hout.trans (afterAddi_out s p), fun r => (hx r).trans (afterAddi_x_toNat s p pairs r)⟩
    rw [hpc, hnext, List.length_cons]
    omega

/-- Settles O47: from reset the whole stream is left, and every register starts at 0. -/
theorem allAddiStreamsAccumulate : Obligations.AllAddiStreamsAccumulate := by
  intro pairs hlength
  have hstream : streamAdmitted (pairs.map addiWord) := (List.length_map addiWord).trans_lt hlength
  obtain ⟨t, ht, hstatus, hpc, hout, hx⟩ :=
    cycles_addiWords pairs (s := State.reset.withStream (pairs.map addiWord)) hstream rfl rfl
  have hend : t.pc.toNat = pairs.length := hpc.trans (Nat.zero_add _)
  refine ⟨t, ?_, ?_, hend, hout, fun r => ?_⟩
  · have hcount : (pairs.map addiWord).length - State.reset.pc.toNat = pairs.length := List.length_map addiWord
    exact (congrArg (cycles · _) hcount).trans ht
  · have hwords : t.words.length = pairs.length := by
      rw [cycles_words ht, State.withStream_words, List.length_map]
    rw [EndedWell, State.phase_of_running hstatus, hend, hwords, if_neg (lt_irrefl _)]
  · simpa using hx r

end Sys2Proof.Machine
end

section
/-! PROOFS. Arithmetic (40_rtype_arith.md, 41_itype_arith.md; 10_state.md R22): what the instructions that write a
register do, the signed reading of a wrapped result, and the two settings of `ZERO_HARDWIRED` and of `IMM_EXTEND`. -/

namespace Sys2Proof.Machine

/-! One register written (R110 to R113, R130, R131). -/

/-- The frame of a register write. -/
theorem onlyRegisterChanges_writeReg (s : State) (d : RegNum) (v : Word) :
    OnlyRegisterChanges d s (s.writeReg params d v) where
  others r hr := by rw [State.writeReg_params_x, if_neg hr]
  rest := {
    pc := s.writeReg_pc ..
    memory := s.memRead_congr _ (s.writeReg_mem ..)
    status := s.writeReg_status ..
    out := s.writeReg_out ..
    words := s.writeReg_words .. }

theorem OnlyRegisterChanges.trans {d : RegNum} {s t u : State} (hst : OnlyRegisterChanges d s t)
    (htu : OnlyRegisterChanges d t u) : OnlyRegisterChanges d s u where
  others r hr := (htu.others r hr).trans (hst.others r hr)
  rest := {
    pc := htu.rest.pc.trans hst.rest.pc
    memory := fun i => (htu.rest.memory i).trans (hst.rest.memory i)
    status := htu.rest.status.trans hst.rest.status
    out := htu.rest.out.trans hst.rest.out
    words := htu.rest.words.trans hst.rest.words }

theorem writeReg_params_x_self (s : State) (d : RegNum) (v : Word) : (s.writeReg params d v).x d = v := by
  rw [State.writeReg_params_x, if_pos rfl]

/-- Settles O13. -/
theorem addAndAdduWriteTheSum : Obligations.AddAndAdduWriteTheSum := by
  refine ⟨fun rs rt rd s => ⟨_, exec_add .., exec_addu .., ?_, onlyRegisterChanges_writeReg ..⟩,
    fun w => decodeWith_of_fnAdd, fun w => decodeWith_of_fnAddu params_consistent⟩
  rw [writeReg_params_x_self, BitVec.toNat_add]

/-- The difference of two words, as an integer modulo 2^32. -/
theorem toNat_sub_emod (a b : Word) : ((a - b).toNat : Int) = ((a.toNat : Int) - b.toNat) % 2 ^ 32 := by
  rw [BitVec.toNat_sub]
  have ha := a.isLt
  have hb := b.isLt
  omega

/-- Settles O14. -/
theorem subAndSubuWriteTheDifference : Obligations.SubAndSubuWriteTheDifference := by
  refine ⟨fun rs rt rd s => ⟨_, exec_sub .., exec_subu .., ?_, onlyRegisterChanges_writeReg ..⟩,
    fun w => decodeWith_of_fnSub params_consistent, fun w => decodeWith_of_fnSubu params_consistent⟩
  rw [writeReg_params_x_self, toNat_sub_emod]

/-- Settles O15: widening with zeros keeps the immediate's value. -/
theorem addiAndAddiuAddTheUnsignedImmediate : Obligations.AddiAndAddiuAddTheUnsignedImmediate := by
  refine ⟨fun rs rt imm s => ⟨_, exec_addi .., exec_addiu .., ?_, onlyRegisterChanges_writeReg ..⟩,
    fun w => decodeWith_of_opcAddi params_consistent, fun w => decodeWith_of_opcAddiu params_consistent⟩
  rw [writeReg_params_x_self, BitVec.toNat_add, BitVec.toNat_setWidth_of_le (by decide)]

/-! The signed reading of a wrapped result (R115). -/

/-- The signed reading is between -2^31 and 2^31 - 1. -/
theorem signed_bounds (v : Word) : -2 ^ 31 ≤ signed v ∧ signed v < 2 ^ 31 := by
  have hv := v.isLt
  unfold signed
  split <;> omega

/-- The signed reading is the pattern's value modulo 2^32. -/
theorem signed_emod (v : Word) : signed v % 2 ^ 32 = v.toNat := by
  have hv := v.isLt
  unfold signed
  split <;> omega

theorem outsideSigned_eq_true (e : Int) : outsideSigned e = true ↔ e < -2 ^ 31 ∨ 2 ^ 31 ≤ e := by
  simp [outsideSigned]

/-- A pattern that is an exact value `e` modulo 2^32 reads as `e` where `e` is in the signed range. -/
theorem signed_of_inside {v : Word} {e : Int} (h : (v.toNat : Int) = e % 2 ^ 32) (he : outsideSigned e = false) :
    signed v = e := by
  rw [← Bool.not_eq_true, outsideSigned_eq_true] at he
  have hbounds := signed_bounds v
  have hmod := signed_emod v
  omega

/-- Where `e` is outside, by less than 2^32, the pattern reads 2^32 less or more, as `e` lies above or below. -/
theorem signed_of_outside {v : Word} {e : Int} (h : (v.toNat : Int) = e % 2 ^ 32) (he : outsideSigned e = true)
    (hlow : -2 ^ 32 ≤ e) (hhigh : e < 2 ^ 32) : signed v = e - 2 ^ 32 * (if 0 ≤ e then 1 else -1) := by
  rw [outsideSigned_eq_true] at he
  have hbounds := signed_bounds v
  have hmod := signed_emod v
  split <;> omega

/-- Settles O16: sum and difference are the exact signed ones modulo 2^32; outside the range the exact value has the
sign of the first operand. -/
theorem signedOverflowWrapsWithoutTrap : Obligations.SignedOverflowWrapsWithoutTrap := by
  intro rs rt rd s
  refine ⟨_, _, exec_add .., exec_sub .., s.writeReg_status .., s.writeReg_status .., ?_⟩
  rw [writeReg_params_x_self, writeReg_params_x_self, addOverflows, subOverflows]
  generalize s.x rs = a
  generalize s.x rt = b
  have ha := signed_bounds a
  have hb := signed_bounds b
  have hamod := signed_emod a
  have hbmod := signed_emod b
  have hsum : ((a + b).toNat : Int) = (signed a + signed b) % 2 ^ 32 := by
    rw [BitVec.toNat_add]; omega
  have hdifference : ((a - b).toNat : Int) = (signed a - signed b) % 2 ^ 32 := by
    rw [toNat_sub_emod]; omega
  refine ⟨signed_of_inside hsum, fun hout => ?_, signed_of_inside hdifference, fun hout => ?_⟩
  · rw [signed_of_outside hsum hout (by omega) (by omega)]
    rw [outsideSigned_eq_true] at hout
    split <;> split <;> omega
  · rw [signed_of_outside hdifference hout (by omega) (by omega)]
    rw [outsideSigned_eq_true] at hout
    split <;> split <;> omega

/-- Settles O17: `a + b - b` is `a`, and `v - v` is 0. -/
theorem addThenSubRestoresTheSource : Obligations.AddThenSubRestoresTheSource := by
  intro rs rt rd s
  have hadd := onlyRegisterChanges_writeReg s rd (s.x rs + s.x rt)
  refine ⟨_, _, exec_add .., exec_sub .., fun hne => ?_, fun heq => ?_, ?_⟩
  · rw [writeReg_params_x_self, writeReg_params_x_self, hadd.others rt (Ne.symm hne), BitVec.add_sub_cancel]
  · rw [writeReg_params_x_self, heq]
    exact BitVec.sub_self _
  · exact hadd.trans (onlyRegisterChanges_writeReg ..)

/-! `ZERO_HARDWIRED` (10_state.md R22, 93 U2). -/

/-- A register that the setting does not hold at 0 is read as its cell. -/
theorem readReg_of_ordinary {c : Config} {i : RegNum} (h : ¬ (c.zeroHardwired = true ∧ i = 0)) (s : State) :
    s.readReg c i = s.x i := if_neg h

/-- A register that the setting does not hold at 0 is written as under the spec's parameters. -/
theorem writeReg_of_ordinary {c : Config} {i : RegNum} (h : ¬ (c.zeroHardwired = true ∧ i = 0)) (s : State)
    (v : Word) : s.writeReg c i v = s.writeReg params i v :=
  (if_neg h).trans (if_neg (by simp)).symm

theorem readReg_zero_of_hardwired {c : Config} (h : c.zeroHardwired = true) (s : State) : s.readReg c 0 = 0 :=
  if_pos ⟨h, rfl⟩

theorem writeReg_zero_of_hardwired {c : Config} (h : c.zeroHardwired = true) (s : State) (v : Word) :
    s.writeReg c 0 v = s := if_pos ⟨h, rfl⟩

/-- Settles O18: under the setting register 0 is neither read nor written; every other register is ordinary. -/
theorem registerZeroIsOrdinaryUnlessHardwired : Obligations.RegisterZeroIsOrdinaryUnlessHardwired := by
  refine ⟨fun c s i r v hc => ?_, fun c s i r v hc => ?_, fun c s v hc => writeReg_zero_of_hardwired hc s v, rfl⟩
  · have hordinary : ∀ k : RegNum, ¬ (c.zeroHardwired = true ∧ k = 0) := by simp [hc]
    rw [writeReg_of_ordinary (hordinary i), readReg_of_ordinary (hordinary r), readReg_of_ordinary (hordinary r),
      State.writeReg_params_x]
  · by_cases hr : r = 0
    · rw [if_pos hr, hr, readReg_zero_of_hardwired hc]
    have hr_ordinary : ¬ (c.zeroHardwired = true ∧ r = 0) := fun h => hr h.2
    rw [if_neg hr]
    by_cases hi : i = 0
    · rw [hi, writeReg_zero_of_hardwired hc, if_neg hr]
    · rw [writeReg_of_ordinary (fun h => hi h.2), readReg_of_ordinary hr_ordinary, readReg_of_ordinary hr_ordinary,
        State.writeReg_params_x]

section
variable {s : State} (h0 : s.x 0 = 0)
include h0

/-- While register 0 holds 0, every setting reads the cells. -/
theorem readReg_of_zero (c : Config) (i : RegNum) : s.readReg c i = s.x i := by
  by_cases h : c.zeroHardwired = true ∧ i = 0
  · rw [h.2, h0, readReg_zero_of_hardwired h.1]
  · exact readReg_of_ordinary h s

theorem regRule_of_zero (c : Config) (op : ArithOp) (rs rt : RegNum) {rd : RegNum} (hrd : rd ≠ 0) :
    regRule c op rs rt rd s = s.writeReg params rd (arith c.overflow op (s.x rs) (s.x rt)) := by
  rw [regRule, readReg_of_zero h0, readReg_of_zero h0, writeReg_of_ordinary fun h => hrd h.2]

theorem immRule_of_zero (c : Config) (rs : RegNum) (imm : Imm16) {rt : RegNum} (hrt : rt ≠ 0) :
    immRule c rs rt imm s =
      s.writeReg params rt (arith c.overflow .add (s.x rs) (extendImm c.immExtend imm)) := by
  rw [immRule, readReg_of_zero h0, writeReg_of_ordinary fun h => hrt h.2]

theorem syscallHandler_of_zero (c : Config) :
    syscallHandler c s = if s.x c.regV0 = sysPrintInt then s.emit (printText (s.x c.regA0))
      else s.raise (.unsupportedSyscall (s.x c.regV0)) := by
  rw [syscallHandler, readReg_of_zero h0, readReg_of_zero h0]

/-- A write of another register leaves register 0 at 0. -/
theorem writeReg_x_zero {d : RegNum} (hd : d ≠ 0) (v : Word) : (s.writeReg params d v).x 0 = 0 := by
  rw [State.writeReg_params_x, if_neg hd.symm, h0]

end

/-- Settles O19: each rule's result, stated above with no mention of the setting, and register 0 in it. -/
theorem zeroSettingIrrelevantWhileNotWritten : Obligations.ZeroSettingIrrelevantWhileNotWritten := by
  refine fun c s h0 => ⟨fun op rs rt rd hrd => ?_, fun rs rt imm hrt => ?_, ?_⟩
  · rw [regRule_of_zero h0 _ op rs rt hrd, regRule_of_zero h0 _ op rs rt hrd]
    exact ⟨rfl, writeReg_x_zero h0 hrd _⟩
  · rw [immRule_of_zero h0 _ rs imm hrt, immRule_of_zero h0 _ rs imm hrt]
    exact ⟨rfl, writeReg_x_zero h0 hrt _⟩
  · rw [syscallHandler_of_zero h0, syscallHandler_of_zero h0]
    refine ⟨rfl, ?_⟩
    split <;> simpa using h0

/-! `IMM_EXTEND` (41_itype_arith.md R132, 93 U1). -/

theorem zext32_toNat (k : Imm16) : (zext32 k).toNat = k.toNat := BitVec.toNat_setWidth_of_le (by decide)

/-- The signed reading is the library's two's complement reading. -/
theorem signed_eq_toInt (v : Word) : signed v = v.toInt := by
  rw [signed, BitVec.toInt_eq_toNat_cond]
  have hv := v.isLt
  split <;> split <;> omega

theorem signed_sext32 (k : Imm16) :
    signed (sext32 k) = if k.toNat < 32768 then (k.toNat : Int) else (k.toNat : Int) - 65536 := by
  rw [signed_eq_toInt, sext32, BitVec.toInt_signExtend_of_le (by decide), BitVec.toInt_eq_toNat_cond]
  split <;> split <;> omega

theorem signed_zext32 (k : Imm16) : signed (zext32 k) = k.toNat := by
  have hk := k.isLt
  rw [signed, zext32_toNat, if_pos (by omega)]

theorem signed_injective : Function.Injective signed := fun a b h =>
  BitVec.eq_of_toInt_eq (by rw [← signed_eq_toInt, ← signed_eq_toInt, h])

/-- Settles O20: the settings give one word exactly where they have one signed reading. -/
theorem immediateSettingsAgreeBelow32768 : Obligations.ImmediateSettingsAgreeBelow32768 := by
  refine ⟨rfl, fun k => ⟨zext32_toNat k, signed_sext32 k, ?_⟩⟩
  rw [extendImm, extendImm, ← signed_injective.eq_iff, signed_sext32, signed_zext32]
  split <;> omega

end Sys2Proof.Machine
end

section
/-! PROOFS. Jumps and the syscall (42_jtype.md, 43_syscall.md): what of the state a fault's entry and a print change. -/

namespace Sys2Proof.Machine

theorem onlyStatusChanges_raise (s : State) (f : Fault) : OnlyStatusChanges s (s.raise f) where
  registers := s.raise_x f
  pc := s.raise_pc f
  memory := s.memRead_congr _ (s.raise_mem f)
  out := s.raise_out f
  words := s.raise_words f

theorem onlyOutputGrows_emit (s : State) (bytes : List Byte) : OnlyOutputGrows bytes s (s.emit bytes) where
  registers := s.emit_x bytes
  pc := s.emit_pc bytes
  memory := s.memRead_congr _ (s.emit_mem bytes)
  status := s.emit_status bytes
  out := s.emit_out bytes
  words := s.emit_words bytes

/-- Settles O21. -/
theorem jumpsRaiseNotYetImplemented : Obligations.JumpsRaiseNotYetImplemented :=
  ⟨fun a s => ⟨_, exec_j a s, rfl, onlyStatusChanges_raise ..⟩,
    fun a s => ⟨_, exec_jal a s, rfl, onlyStatusChanges_raise ..⟩,
    fun _ => decodeWith_of_opcJ params_consistent, fun _ => decodeWith_of_opcJal params_consistent⟩

theorem exec_syscall_of_zero {s : State} (h : s.x params.regV0 = 0) :
    exec .syscall s = .next (s.emit (printText (s.x params.regA0))) :=
  (exec_syscall s).trans (congrArg _ (if_pos h))

theorem exec_syscall_of_ne_zero {s : State} (h : s.x params.regV0 ≠ 0) :
    exec .syscall s = .next (s.raise (.unsupportedSyscall (s.x params.regV0))) :=
  (exec_syscall s).trans (congrArg _ (if_neg h))

/-- Settles O22. -/
theorem syscallZeroPrintsTheArgument : Obligations.SyscallZeroPrintsTheArgument :=
  ⟨fun s h => ⟨_, exec_syscall_of_zero h, onlyOutputGrows_emit s _⟩,
    fun _ => decodeWith_of_fnSyscall params_consistent⟩

/-- Settles O24: every word that selects `syscall` runs it, whatever its other bits. -/
theorem otherSyscallNumbersFault : Obligations.OtherSyscallNumbersFault := by
  intro s w hR hfunct
  have hdecode : decode w = .instr .syscall := decodeWith_of_fnSyscall params_consistent hR hfunct
  rw [dispatch_of_instr hdecode]
  by_cases h : s.x params.regV0 = 0
  · exact ⟨_, exec_syscall_of_zero h, exec_syscall_of_zero h, fun hne => absurd h hne, fun _ => rfl⟩
  · exact ⟨_, exec_syscall_of_ne_zero h, exec_syscall_of_ne_zero h, fun _ => ⟨rfl, onlyStatusChanges_raise ..⟩,
      fun hzero => absurd hzero h⟩

end Sys2Proof.Machine
end

section
/-! PROOFS. The memory primitives and the canonical form (20_memory.md R61; 10_state.md R28): a canonical list is
determined by what it reads. -/

namespace Sys2Proof.Machine

theorem State.memRead_of_lt (s : State) {i : Nat} (h : i < memWords) : s.memRead i = .ok (s.mem.read i) := if_pos h

theorem State.memWrite_of_lt (s : State) {i : Nat} (h : i < memWords) (v : Word) :
    s.memWrite i v = .ok { s with mem := s.mem.write i v } := if_pos h

/-- Settles O30: the read after a write of the memory list, which keeps the canonical form. -/
theorem memoryPrimitivesReadBackAndStayCanonical : Obligations.MemoryPrimitivesReadBackAndStayCanonical := by
  refine ⟨fun s i v hwf hi => ?_, fun s i v hi => ?_⟩
  · refine ⟨_, s.memWrite_of_lt hi v, ?_, fun k hk => ?_, Mem.wf_write s.mem i v hwf hi, rfl⟩
    · rw [State.memRead_of_lt _ hi, Mem.read_write s.mem 0 i i v hwf, if_pos rfl]
    · simp only [State.memRead, Mem.read_write s.mem 0 i k v hwf, if_neg hk]
  · exact ⟨if_neg (Nat.not_lt.mpr hi), if_neg (Nat.not_lt.mpr hi)⟩

theorem Mem.read_cons_self (i : Nat) (v : Word) (m : Mem) : Mem.read ((i, v) :: m) i = v := if_pos rfl

theorem Mem.read_cons_of_ne {i k : Nat} (h : k ≠ i) (v : Word) (m : Mem) : Mem.read ((i, v) :: m) k = m.read k :=
  if_neg h

/-- A canonical list whose first index is `i` does not read like one that starts above `i`. -/
theorem Mem.read_cons_ne_of_above {lo i : Nat} {v : Word} {m n : Mem} (hm : Mem.wfFrom lo ((i, v) :: m) = true)
    (hn : Mem.wfFrom (i + 1) n = true) : ¬ ∀ k < memWords, Mem.read ((i, v) :: m) k = n.read k := by
  intro halike
  obtain ⟨-, hi, hv, -⟩ := (Mem.wfFrom_cons lo i v m).mp hm
  have hread := halike i hi
  rw [Mem.read_cons_self, Mem.read_below n (i + 1) i hn (Nat.lt_succ_self i)] at hread
  exact hv hread

/-- Canonical lists that read alike are equal: neither starts below the other, so their first entries agree, and so do
their rests, which both read as unlisted up to that entry. -/
theorem Mem.eq_of_read_eq (m n : Mem) {lo : Nat} (hm : Mem.wfFrom lo m = true) (hn : Mem.wfFrom lo n = true)
    (halike : ∀ k < memWords, m.read k = n.read k) : m = n := by
  induction m generalizing lo n with
  | nil =>
    cases n with
    | nil => rfl
    | cons e n =>
      exact absurd (fun k hk => (halike k hk).symm) (Mem.read_cons_ne_of_above (n := []) hn rfl)
  | cons e m ih =>
    obtain ⟨i, u⟩ := e
    obtain ⟨hlo, hi, hu, hmrest⟩ := (Mem.wfFrom_cons lo i u m).mp hm
    cases n with
    | nil => exact absurd halike (Mem.read_cons_ne_of_above hm rfl)
    | cons e n =>
      obtain ⟨j, v⟩ := e
      obtain ⟨hloj, hj, hv, hnrest⟩ := (Mem.wfFrom_cons lo j v n).mp hn
      obtain hlt | rfl | hgt := Nat.lt_trichotomy i j
      · refine absurd halike (Mem.read_cons_ne_of_above hm ?_)
        exact (Mem.wfFrom_cons ..).mpr ⟨hlt, hj, hv, hnrest⟩
      · have huv : u = v := by simpa [Mem.read_cons_self] using halike i hi
        refine congrArg₂ _ (congrArg _ huv) (ih n hmrest hnrest fun k hk => ?_)
        by_cases hki : k = i
        · rw [Mem.read_below m (i + 1) k hmrest (by omega), Mem.read_below n (i + 1) k hnrest (by omega)]
        · simpa [Mem.read_cons_of_ne hki] using halike k hk
      · refine absurd (fun k hk => (halike k hk).symm) (Mem.read_cons_ne_of_above hn ?_)
        exact (Mem.wfFrom_cons ..).mpr ⟨hgt, hi, hu, hmrest⟩

/-- Settles O31. -/
theorem canonicalMemoriesThatReadAlikeAreEqual : Obligations.CanonicalMemoriesThatReadAlikeAreEqual :=
  fun m n hm hn halike => Mem.eq_of_read_eq m n hm hn halike

end Sys2Proof.Machine
end

section
/-! PROOFS. The front-end contract (10_state.md R24; 30_encoding.md R88, R89): register names and numbers, and the word
of an Instruction value as the canonical word of the instruction it stands for. -/

namespace Sys2Proof.Machine

/-- The name of a number: the names in the order of their numbers (R24). -/
def RegName.ofNumber (r : RegNum) : RegName :=
  [.zero, .at, .v0, .v1, .a0, .a1, .a2, .a3, .t0, .t1, .t2, .t3, .t4, .t5, .t6, .t7, .s0, .s1, .s2, .s3, .s4, .s5,
    .s6, .s7, .t8, .t9, .k0, .k1, .gp, .sp, .s8, .ra].getD r.toNat .zero

theorem RegName.ofNumber_number (a : RegName) : RegName.ofNumber a.number = a := by
  cases a <;> rfl

theorem RegName.number_ofNumber : ∀ r : RegNum, (RegName.ofNumber r).number = r := by decide

/-- Settles O12: numbering the names has an inverse. -/
theorem registerNamesNumberTheRegisters : Obligations.RegisterNamesNumberTheRegisters :=
  ⟨fun _ _ h => Function.LeftInverse.injective RegName.ofNumber_number h,
    fun r => ⟨RegName.ofNumber r, RegName.number_ofNumber r⟩, rfl, rfl, rfl, rfl⟩

/-! Instruction values. -/

/-- The word of an Instruction value is the canonical word of the instruction it stands for. -/
theorem AsmLine.assemble_eq_map_encode (l : AsmLine) : l.assemble = l.instr.map encode := by
  unfold AsmLine.assemble AsmLine.instr
  split <;> simp [encode, encodeWith, encodeR, encodeI, encodeJ]

theorem Operand.exists_of_tag_reg {o : Operand} (h : o.tag = .reg) : ∃ r, o = .reg r := by
  cases o with
  | reg r => exact ⟨r, rfl⟩
  | imm k => cases h

theorem Operand.exists_of_tag_imm {o : Operand} (h : o.tag = .imm) : ∃ k, o = .imm k := by
  cases o with
  | reg r => cases h
  | imm k => exact ⟨k, rfl⟩

/-- Operands with the tags of the register format. -/
theorem exists_of_tags_reg_reg_reg {l : List Operand} (h : l.map Operand.tag = [.reg, .reg, .reg]) :
    ∃ d s t, l = [.reg d, .reg s, .reg t] := by
  simp only [List.map_eq_cons_iff, List.map_eq_nil_iff] at h
  obtain ⟨o₁, _, rfl, h₁, o₂, _, rfl, h₂, o₃, _, rfl, h₃, rfl⟩ := h
  obtain ⟨d, rfl⟩ := o₁.exists_of_tag_reg h₁
  obtain ⟨s, rfl⟩ := o₂.exists_of_tag_reg h₂
  obtain ⟨t, rfl⟩ := o₃.exists_of_tag_reg h₃
  exact ⟨d, s, t, rfl⟩

/-- Operands with the tags of the immediate format. -/
theorem exists_of_tags_reg_reg_imm {l : List Operand} (h : l.map Operand.tag = [.reg, .reg, .imm]) :
    ∃ t s k, l = [.reg t, .reg s, .imm k] := by
  simp only [List.map_eq_cons_iff, List.map_eq_nil_iff] at h
  obtain ⟨o₁, _, rfl, h₁, o₂, _, rfl, h₂, o₃, _, rfl, h₃, rfl⟩ := h
  obtain ⟨t, rfl⟩ := o₁.exists_of_tag_reg h₁
  obtain ⟨s, rfl⟩ := o₂.exists_of_tag_reg h₂
  obtain ⟨k, rfl⟩ := o₃.exists_of_tag_imm h₃
  exact ⟨t, s, k, rfl⟩

/-- Operands with the tag of the jump format. -/
theorem exists_of_tags_imm {l : List Operand} (h : l.map Operand.tag = [.imm]) : ∃ a, l = [.imm a] := by
  simp only [List.map_eq_cons_iff, List.map_eq_nil_iff] at h
  obtain ⟨o, _, rfl, htag, rfl⟩ := h
  obtain ⟨a, rfl⟩ := o.exists_of_tag_imm htag
  exact ⟨a, rfl⟩

/-- An Instruction value with its mnemonic's operands stands for an instruction. -/
theorem AsmLine.exists_instr_of_wellFormed {l : AsmLine} (h : l.wellFormed = true) : ∃ i, l.instr = some i := by
  obtain ⟨op, operands⟩ := l
  have htags : operands.map Operand.tag = op.tags := beq_iff_eq.mp h
  cases op with
  | add | addu | sub | subu => obtain ⟨d, s, t, rfl⟩ := exists_of_tags_reg_reg_reg htags; exact ⟨_, rfl⟩
  | addi | addiu => obtain ⟨t, s, k, rfl⟩ := exists_of_tags_reg_reg_imm htags; exact ⟨_, rfl⟩
  | j | jal => obtain ⟨a, rfl⟩ := exists_of_tags_imm htags; exact ⟨_, rfl⟩
  | syscall => obtain rfl := List.map_eq_nil_iff.mp htags; exact ⟨_, rfl⟩

/-- An Instruction value that stands for an instruction has its mnemonic's operands. -/
theorem AsmLine.wellFormed_of_instr {l : AsmLine} {i : Instr} (h : l.instr = some i) : l.wellFormed = true := by
  unfold AsmLine.instr at h
  split at h <;> simp_all [AsmLine.wellFormed, Operand.tag, Mnemonic.tags]

/-- Settles O11: the word is the canonical word of the instruction, which decodes to it. -/
theorem assembledFormsDecode : Obligations.AssembledFormsDecode := by
  refine fun l => ⟨fun hwf => ?_, fun hwf => ?_⟩
  · obtain ⟨i, hi⟩ := AsmLine.exists_instr_of_wellFormed hwf
    exact ⟨encode i, i, by rw [l.assemble_eq_map_encode, hi, Option.map_some], hi, decode_encode i, rfl⟩
  · rw [l.assemble_eq_map_encode, Option.map_eq_none_iff, Option.eq_none_iff_forall_ne_some]
    exact fun i hi => absurd (AsmLine.wellFormed_of_instr hi) (by simp [hwf])

end Sys2Proof.Machine
end

section
/-! PROOFS. The printed line (43_syscall.md R152). The reader of digits undoes the printer of digits
(`readDigits_decDigits`); a line of `k` digits denotes a number below `10 ^ k` (`lt_of_readNumber`), and the printer
uses as few digits as that allows (`length_decDigits_le`), so no shorter line denotes the value. -/

namespace Sys2Proof.Machine

/-! Digits. -/

theorem digitByte_toNat {d : Nat} (hd : d < 10) : (digitByte d).toNat = 0x30 + d := by
  rw [digitByte, BitVec.toNat_ofNat]
  omega

theorem digitValue_digitByte {d : Nat} (hd : d < 10) : digitValue (digitByte d) = some d := by
  rw [digitValue, digitByte_toNat hd, if_pos (by omega), Nat.add_sub_cancel_left]

theorem lt_of_digitValue {b : Byte} {d : Nat} (h : digitValue b = some d) : d < 10 := by
  unfold digitValue at h
  split at h
  · cases h; omega
  · cases h

/-- A digit's byte is no newline and no minus sign. -/
theorem digitByte_ne {d : Nat} (hd : d < 10) : digitByte d ≠ newlineByte ∧ digitByte d ≠ minusByte := by
  have hbyte := digitByte_toNat hd
  have hnewline : newlineByte.toNat = 0x0A := rfl
  have hminus : minusByte.toNat = 0x2D := rfl
  exact ⟨fun h => by rw [h] at hbyte; omega, fun h => by rw [h] at hbyte; omega⟩

/-- The digits of `n`, unfolded at the last one. -/
theorem decDigits_succ (fuel n : Nat) :
    decDigits (fuel + 1) n = (if n < 10 then [] else decDigits fuel (n / 10)) ++ [digitByte (n % 10)] := rfl

/-- Every byte printed is a digit's. -/
theorem exists_digit_of_mem_decDigits {fuel n : Nat} {b : Byte} (h : b ∈ decDigits fuel n) :
    ∃ d < 10, b = digitByte d := by
  induction fuel generalizing n with
  | zero => cases h
  | succ fuel ih =>
    rw [decDigits_succ, List.mem_append, List.mem_singleton] at h
    obtain hinit | hlast := h
    · split at hinit
      · cases hinit
      · exact ih hinit
    · exact ⟨n % 10, Nat.mod_lt n (by decide), hlast⟩

theorem decDigits_succ_ne_nil (fuel n : Nat) : decDigits (fuel + 1) n ≠ [] := by
  simp [decDigits_succ]

theorem length_decDigits_le_fuel (fuel n : Nat) : (decDigits fuel n).length ≤ fuel := by
  induction fuel generalizing n with
  | zero => exact le_rfl
  | succ fuel ih =>
    rw [decDigits_succ, List.length_append, List.length_singleton]
    split
    · exact Nat.succ_le_succ (Nat.zero_le _)
    · exact Nat.succ_le_succ (ih _)

/-- A number below `10 ^ k` is printed in at most `k` digits. -/
theorem length_decDigits_le {k : Nat} (fuel : Nat) {n : Nat} (hk : 0 < k) (h : n < 10 ^ k) :
    (decDigits fuel n).length ≤ k := by
  induction k generalizing fuel n with
  | zero => cases hk
  | succ k ih =>
    cases fuel with
    | zero => exact Nat.zero_le _
    | succ fuel =>
      rw [decDigits_succ, List.length_append, List.length_singleton]
      split
      · exact Nat.succ_le_succ (Nat.zero_le _)
      · have hdiv : n / 10 < 10 ^ k := Nat.div_lt_of_lt_mul (by rwa [Nat.mul_comm, ← Nat.pow_succ])
        have hpos : 0 < k := Nat.pos_of_ne_zero fun h0 => by subst h0; omega
        exact Nat.succ_le_succ (ih fuel hpos hdiv)

/-! Reading. -/

/-- One digit read. -/
theorem readDigits_digitByte (acc : Nat) {d : Nat} (hd : d < 10) (rest : List Byte) :
    readDigits acc (digitByte d :: rest) = readDigits (10 * acc + d) rest := by
  simp [readDigits, (digitByte_ne hd).1, digitValue_digitByte hd]

/-- The digits of `n` read on from `acc`: `acc` moves up by their number of places. -/
theorem readDigits_decDigits {fuel n : Nat} (h : n < 10 ^ fuel) (acc : Nat) (rest : List Byte) :
    readDigits acc (decDigits fuel n ++ rest) = readDigits (acc * 10 ^ (decDigits fuel n).length + n) rest := by
  induction fuel generalizing n rest with
  | zero =>
    obtain rfl : n = 0 := by omega
    simp [decDigits]
  | succ fuel ih =>
    rw [decDigits_succ, List.append_assoc, List.singleton_append, List.length_append, List.length_singleton,
      Nat.pow_succ]
    split
    case isTrue hsmall =>
      rw [List.nil_append, readDigits_digitByte acc (Nat.mod_lt n (by decide)), Nat.mod_eq_of_lt hsmall]
      simp [Nat.mul_comm]
    case isFalse hlarge =>
      have hdiv : n / 10 < 10 ^ fuel := Nat.div_lt_of_lt_mul (by rwa [Nat.mul_comm, ← Nat.pow_succ])
      rw [ih hdiv, readDigits_digitByte _ (Nat.mod_lt n (by decide))]
      congr 1
      rw [← Nat.mul_assoc]
      omega

/-- Reading digits from the start is reading a number, where the first byte is no newline. -/
theorem readNumber_cons {b : Byte} (hb : b ≠ newlineByte) (rest : List Byte) :
    readNumber (b :: rest) = readDigits 0 (b :: rest) := by
  cases h : digitValue b <;> simp [readNumber, readDigits, hb, h]

/-- The printed number reads back. -/
theorem readNumber_decDigits {fuel n : Nat} (h : n < 10 ^ (fuel + 1)) :
    readNumber (decDigits (fuel + 1) n ++ [newlineByte]) = some n := by
  obtain ⟨b, bs, hcons⟩ := List.exists_cons_of_ne_nil (decDigits_succ_ne_nil fuel n)
  obtain ⟨d, hd, hb⟩ := exists_digit_of_mem_decDigits (hcons ▸ List.mem_cons_self : b ∈ decDigits (fuel + 1) n)
  rw [hcons, List.cons_append, readNumber_cons (hb ▸ (digitByte_ne hd).1), ← List.cons_append, ← hcons,
    readDigits_decDigits h]
  simp [readDigits]

/-- Digits and a newline read on from `acc` denote less than `acc + 1` moved up by the digits' places. -/
theorem lt_of_readDigits {acc n : Nat} {line : List Byte} (h : readDigits acc line = some n) :
    n < (acc + 1) * 10 ^ (line.length - 1) := by
  induction line generalizing acc with
  | nil => cases h
  | cons b rest ih =>
    unfold readDigits at h
    split at h
    case isTrue hend =>
      cases h
      simp [hend.2]
    case isFalse hend =>
      split at h
      case h_1 d hd =>
        have hd10 := lt_of_digitValue hd
        cases rest with
        | nil => cases h
        | cons b' rest =>
          have hrest := ih h
          calc n < (10 * acc + d + 1) * 10 ^ rest.length := hrest
            _ ≤ 10 * (acc + 1) * 10 ^ rest.length := Nat.mul_le_mul_right _ (by omega)
            _ = (acc + 1) * 10 ^ (rest.length + 1) := by ring
      case h_2 => cases h

/-- A number's line with `k` digits denotes less than `10 ^ k`, and has at least one digit. -/
theorem lt_of_readNumber {n : Nat} {line : List Byte} (h : readNumber line = some n) :
    n < 10 ^ (line.length - 1) ∧ 2 ≤ line.length := by
  cases line with
  | nil => cases h
  | cons b rest =>
    obtain ⟨d, hd, hrest⟩ := Option.bind_eq_some_iff.mp h
    have hb : b ≠ newlineByte := by rintro rfl; cases hd
    have hlt := lt_of_readDigits ((readNumber_cons hb rest).symm.trans h)
    refine ⟨by simpa using hlt, ?_⟩
    cases rest with
    | nil => cases hrest
    | cons b' rest => exact Nat.le_add_left ..

/-! Lines with a sign. -/

theorem readLine_minus (rest : List Byte) :
    readLine (minusByte :: rest) = (readNumber rest).map fun (n : Nat) => -(n : Int) := by
  rw [readLine, if_pos rfl]

theorem readLine_of_ne_minus {b : Byte} (hb : b ≠ minusByte) (rest : List Byte) :
    readLine (b :: rest) = (readNumber (b :: rest)).map fun (n : Nat) => (n : Int) := by
  rw [readLine, if_neg hb]

/-- The bytes that the sign of a value takes. -/
def signLength (z : Int) : Nat := if z < 0 then 1 else 0

theorem signLength_le_one (z : Int) : signLength z ≤ 1 := by
  unfold signLength
  split <;> decide

/-- A line that denotes `z` has room for its sign, and as many digits as its magnitude asks for. -/
theorem length_of_readLine {line : List Byte} {z : Int} (h : readLine line = some z) :
    z.natAbs < 10 ^ (line.length - 1 - signLength z) ∧ 2 + signLength z ≤ line.length := by
  cases line with
  | nil => cases h
  | cons b rest =>
    by_cases hb : b = minusByte
    · rw [hb, readLine_minus] at h
      obtain ⟨n, hn, rfl⟩ := Option.map_eq_some_iff.mp h
      obtain ⟨hlt, hlength⟩ := lt_of_readNumber hn
      have hsign := signLength_le_one (-(n : Int))
      have hroom : rest.length - 1 ≤ (b :: rest).length - 1 - signLength (-(n : Int)) := by
        rw [List.length_cons]; omega
      refine ⟨?_, by rw [List.length_cons]; omega⟩
      rw [Int.natAbs_neg, Int.natAbs_natCast]
      exact hlt.trans_le (Nat.pow_le_pow_right (by decide) hroom)
    · rw [readLine_of_ne_minus hb] at h
      obtain ⟨n, hn, rfl⟩ := Option.map_eq_some_iff.mp h
      have hsign : signLength (n : Int) = 0 := if_neg (by omega)
      rw [hsign, Int.natAbs_natCast]
      exact lt_of_readNumber hn

/-! The printed line. -/

/-- The magnitude of a signed word has at most ten digits. -/
theorem natAbs_signed_lt (v : Word) : (signed v).natAbs < 10 ^ 10 := by
  have hbounds := signed_bounds v
  omega

theorem printText_of_neg {v : Word} (h : signed v < 0) :
    printText v = minusByte :: (decDigits 10 (signed v).natAbs ++ [newlineByte]) := by
  rw [printText, decimalText, if_pos h, List.cons_append]

theorem printText_of_nonneg {v : Word} (h : ¬ signed v < 0) :
    printText v = decDigits 10 (signed v).natAbs ++ [newlineByte] := by
  rw [printText, decimalText, if_neg h]

theorem length_printText (v : Word) :
    (printText v).length = signLength (signed v) + (decDigits 10 (signed v).natAbs).length + 1 := by
  by_cases h : signed v < 0
  · rw [printText_of_neg h, signLength, if_pos h, List.length_cons, List.length_append, List.length_singleton]
    omega
  · rw [printText_of_nonneg h, signLength, if_neg h, List.length_append, List.length_singleton]
    omega

/-- A printed line without a sign starts with a digit. -/
theorem exists_digit_head_of_nonneg {v : Word} (h : ¬ signed v < 0) :
    ∃ d < 10, ∃ rest, printText v = digitByte d :: rest := by
  obtain ⟨b, bs, hcons⟩ := List.exists_cons_of_ne_nil (decDigits_succ_ne_nil 9 (signed v).natAbs)
  obtain ⟨d, hd, rfl⟩ := exists_digit_of_mem_decDigits (hcons ▸ List.mem_cons_self : b ∈ decDigits 10 _)
  exact ⟨d, hd, bs ++ [newlineByte], by rw [printText_of_nonneg h, hcons, List.cons_append]⟩

theorem readLine_printText (v : Word) : readLine (printText v) = some (signed v) := by
  have hread := readNumber_decDigits (natAbs_signed_lt v)
  by_cases h : signed v < 0
  · rw [printText_of_neg h, readLine_minus, hread, Option.map_some]
    exact congrArg some (by omega)
  · obtain ⟨d, hd, rest, hcons⟩ := exists_digit_head_of_nonneg h
    rw [hcons, readLine_of_ne_minus (digitByte_ne hd).2, ← hcons, printText_of_nonneg h, hread, Option.map_some]
    exact congrArg some (by omega)

theorem head_printText_eq_minus_iff (v : Word) : (printText v).head? = some minusByte ↔ signed v < 0 := by
  by_cases h : signed v < 0
  · simp [printText_of_neg h, h]
  · obtain ⟨d, hd, rest, hcons⟩ := exists_digit_head_of_nonneg h
    simp [hcons, (digitByte_ne hd).2, h]

/-- A line that denotes the value of `v` is no shorter than the printed one. -/
theorem length_printText_le {v : Word} {line : List Byte} (h : readLine line = some (signed v)) :
    (printText v).length ≤ line.length := by
  obtain ⟨hlt, hlength⟩ := length_of_readLine h
  have hdigits := length_decDigits_le 10 (by omega) hlt
  rw [length_printText]
  omega

/-- Settles O23: the printed line denotes the value, so it has room for a digit; its bounds are the sign, ten digits and
the newline. -/
theorem printedLineIsTheShortestDecimal : Obligations.PrintedLineIsTheShortestDecimal := by
  intro v
  have hread := readLine_printText v
  have hmin := (length_of_readLine hread).2
  have hdigits := length_decDigits_le_fuel 10 (signed v).natAbs
  have hsign := signLength_le_one (signed v)
  have hlength := length_printText v
  exact ⟨hread, by omega, by omega, head_printText_eq_minus_iff v, fun line => length_printText_le⟩

end Sys2Proof.Machine
end
